-- ==== Sys2Proof/Word.lean ====
section
/-!
DEFINITION. The widths of the block: registers and instruction words have 16 bits (00_scope.md R6), memory cells and
immediates 8, encoding fields 4. Every value is unsigned (R9).
-/

namespace Sys2Proof

/-- A register value, an instruction word or an address (R6: XLEN = ILEN = 16). -/
abbrev Word := BitVec 16

/-- A byte of either memory, and an `imm8` field (R9). -/
abbrev Byte := BitVec 8

/-- A 4-bit field of the instruction word: opcode, func, rand1 or rand2 (R7). -/
abbrev Nibble := BitVec 4

end Sys2Proof
end

