-- ==== Sys2Proof/Syntax.lean ====
section
/-!
DEFINITION. The twelve instructions (00_scope.md R2), one constructor per row of the opcode table, each with the fields
the decoder gives it (30_encoding.md R98).
-/

namespace Sys2Proof

/-- An instruction with its raw fields. A register field may name an index that does not exist (12..15, or 12..255 in the
`ai` of LD and ST): such a word is a legal encoding and stops at execute (R86, R94). -/
inductive Instr where
  /-- MOV (40_mov.md R120): register copy. Bits 11:8 of the word are ignored and not kept (R93). -/
  | mov (rand1 rand2 : Nibble)
  /-- MOVI (40_mov.md R121): zero-extended 8-bit immediate to register. -/
  | movi (r : Nibble) (imm8 : Byte)
  /-- ADD (41_alu.md R131). -/
  | add (rand1 rand2 : Nibble)
  /-- SUB (41_alu.md R132). -/
  | sub (rand1 rand2 : Nibble)
  /-- OR (41_alu.md R133). -/
  | or (rand1 rand2 : Nibble)
  /-- AND (41_alu.md R134). -/
  | and (rand1 rand2 : Nibble)
  /-- CMP (41_alu.md R135): the one writer of the Equal flag. -/
  | cmp (rand1 rand2 : Nibble)
  /-- LD (42_load_store.md R140): `ai` is the index of the address register. -/
  | ld (r : Nibble) (ai : Byte)
  /-- ST (42_load_store.md R141): `r` is the data source, `ai` the index of the address register. -/
  | st (r : Nibble) (ai : Byte)
  /-- B (43_branch.md R150): absolute 8-bit target. -/
  | b (imm8 : Byte)
  /-- BEQ (43_branch.md R151). -/
  | beq (imm8 : Byte)
  /-- BZ (43_branch.md R152). -/
  | bz (imm8 : Byte)
deriving DecidableEq, Repr

end Sys2Proof
end

