-- ==== Sys2Proof/WellFormed.lean ====
section
/-!
DEFINITION. Which instructions name only registers that exist. The field widths are in the types, so every `Instr` has an
encoding; the one check left is 10_state.md R24: the valid register indices are 0..11. An ill-formed instruction still
decodes and still has its meaning, the fatal stop of R24 (30_encoding.md R86).
-/

namespace Sys2Proof

/-- 10_state.md R24: the valid register indices. -/
def validIndex (i : Nat) : Bool := decide (i ≤ 11)

/-- The register indices an instruction names, in the order its rule checks them (60_exceptions.md R162): rand1 then rand2
in the register form, func then imm8 for LD and ST. Branches name none. -/
def Instr.namedIndices : Instr → List Nat
  | .mov x y => [x.toNat, y.toNat]
  | .movi r _ => [r.toNat]
  | .add x y => [x.toNat, y.toNat]
  | .sub x y => [x.toNat, y.toNat]
  | .or x y => [x.toNat, y.toNat]
  | .and x y => [x.toNat, y.toNat]
  | .cmp x y => [x.toNat, y.toNat]
  | .ld r ai => [r.toNat, ai.toNat]
  | .st r ai => [r.toNat, ai.toNat]
  | .b _ => []
  | .beq _ => []
  | .bz _ => []

/-- Every register the instruction names exists (R24). -/
def Instr.wellFormed (i : Instr) : Bool := i.namedIndices.all validIndex

end Sys2Proof
end

