-- ==== Sys2Proof/Decode.lean ====
section
/-!
DEFINITION. The instruction word: its fields (30_encoding.md R81 to R84), its bytes (20_memory.md R52), the decoder (R98),
the opcode table (R111) and the encoder (R102, R105).
-/

namespace Sys2Proof

/-- Bits 15:12, the opcode (R81). -/
def opcodeOf (w : Word) : Nibble := w.extractLsb' 12 4

/-- Bits 11:8: a function, a register index, or ignored (R84). -/
def funcOf (w : Word) : Nibble := w.extractLsb' 8 4

/-- Bits 7:4, the first register operand (R82). -/
def rand1Of (w : Word) : Nibble := w.extractLsb' 4 4

/-- Bits 3:0, the second register operand (R82). -/
def rand2Of (w : Word) : Nibble := w.extractLsb' 0 4

/-- Bits 7:0, the immediate field (R83). -/
def imm8Of (w : Word) : Byte := w.extractLsb' 0 8

/-- Bits 7:0 of a 16-bit value: the byte a word stores first (20_memory.md R52), and the byte ST stores (R58). -/
def lowByte (w : Word) : Byte := w.extractLsb' 0 8

/-- Bits 15:8: the byte an instruction word stores second (20_memory.md R52). -/
def highByte (w : Word) : Byte := w.extractLsb' 8 8

/-- The word whose first byte in memory is `b0` and second `b1`: `b1 ++ b0`, little-endian (20_memory.md R52). -/
def wordOfBytes (b0 b1 : Byte) : Word := b1 ++ b0

/-- What decoding a word gives: an instruction, or one of the two decode faults with what it reports (R90 to R92, R98). -/
inductive Decoded where
  /-- The word is this instruction. -/
  | instr (i : Instr)
  /-- R90: the opcode is in 6..15. -/
  | invalidOpcode (opcode : Nibble)
  /-- R91, R92: an ALU function in 5..15 or a BRANCH function in 3..15. -/
  | invalidFunction (opcode func : Nibble)
deriving DecidableEq, Repr

/-- Opcode 2, by the ALU function (R88, R91). -/
def decodeAlu (w : Word) : Decoded :=
  match (funcOf w).toNat with
  | 0 => .instr (.add (rand1Of w) (rand2Of w))
  | 1 => .instr (.sub (rand1Of w) (rand2Of w))
  | 2 => .instr (.or (rand1Of w) (rand2Of w))
  | 3 => .instr (.and (rand1Of w) (rand2Of w))
  | 4 => .instr (.cmp (rand1Of w) (rand2Of w))
  | _ => .invalidFunction (opcodeOf w) (funcOf w)

/-- Opcode 5, by the branch function (R89, R92). -/
def decodeBranch (w : Word) : Decoded :=
  match (funcOf w).toNat with
  | 0 => .instr (.b (imm8Of w))
  | 1 => .instr (.beq (imm8Of w))
  | 2 => .instr (.bz (imm8Of w))
  | _ => .invalidFunction (opcodeOf w) (funcOf w)

/-- R98: decode is a total function of the 16 bits of the word alone (R95). -/
def decode (w : Word) : Decoded :=
  match (opcodeOf w).toNat with
  | 0 => .instr (.mov (rand1Of w) (rand2Of w))
  | 1 => .instr (.movi (funcOf w) (imm8Of w))
  | 2 => decodeAlu w
  | 3 => .instr (.ld (funcOf w) (imm8Of w))
  | 4 => .instr (.st (funcOf w) (imm8Of w))
  | 5 => decodeBranch w
  | _ => .invalidOpcode (opcodeOf w)

/-- What decoding a byte stream gives: the first word's decoding and the bytes after it, or too few bytes for a word. -/
inductive DecodedBytes where
  /-- The first two bytes form a word; it decodes to this, and these bytes follow it. -/
  | word (d : Decoded) (rest : List Byte)
  /-- Fewer than two bytes: no whole word (R80). -/
  | truncated
deriving DecidableEq, Repr

/-- Decoding from bytes in memory order: every instruction is exactly two bytes, low byte first (R80). -/
def decodeBytes : List Byte → DecodedBytes
  | b0 :: b1 :: rest => .word (decode (wordOfBytes b0 b1)) rest
  | _ => .truncated

/-- The instruction the decoder reads from the `nbits` low bits of `w`, numbered as spec/opcode_table.json numbers them:
laid out low byte first and given to `decodeBytes`. `none` where it refuses. -/
def decodeTableWord (nbits w : Nat) : Option Instr :=
  let word : Word := BitVec.ofNat 16 (w % 2 ^ nbits)
  match decodeBytes [lowByte word, highByte word] with
  | .word (.instr i) _ => some i
  | _ => none

/-- One row of the table of R111: a word `w` is the instruction when `w &&& mask = bits`. -/
structure OpcodeRow where
  /-- The instruction's name as the table spells it. -/
  mnemonic : String
  /-- The bits that are fixed. -/
  mask : Word
  /-- Their values ("match" in R111). -/
  bits : Word
deriving DecidableEq, Repr

/-- The complete encoding patterns (R111). -/
def opcodeTable : List OpcodeRow :=
  [ ⟨"MOV", 0xF000#16, 0x0000#16⟩, ⟨"MOVI", 0xF000#16, 0x1000#16⟩,
    ⟨"ADD", 0xFF00#16, 0x2000#16⟩, ⟨"SUB", 0xFF00#16, 0x2100#16⟩, ⟨"OR", 0xFF00#16, 0x2200#16⟩,
    ⟨"AND", 0xFF00#16, 0x2300#16⟩, ⟨"CMP", 0xFF00#16, 0x2400#16⟩,
    ⟨"LD", 0xF000#16, 0x3000#16⟩, ⟨"ST", 0xF000#16, 0x4000#16⟩,
    ⟨"B", 0xFF00#16, 0x5000#16⟩, ⟨"BEQ", 0xFF00#16, 0x5100#16⟩, ⟨"BZ", 0xFF00#16, 0x5200#16⟩ ]

/-- R111: the word is the row's instruction. -/
def OpcodeRow.matches (row : OpcodeRow) (w : Word) : Bool := (w &&& row.mask) == row.bits

/-- The instruction's name as R111 spells it. -/
def Instr.mnemonic : Instr → String
  | .mov _ _ => "MOV"
  | .movi _ _ => "MOVI"
  | .add _ _ => "ADD"
  | .sub _ _ => "SUB"
  | .or _ _ => "OR"
  | .and _ _ => "AND"
  | .cmp _ _ => "CMP"
  | .ld _ _ => "LD"
  | .st _ _ => "ST"
  | .b _ => "B"
  | .beq _ => "BEQ"
  | .bz _ => "BZ"

/-- The opcode of an instruction's family (R87, R102). -/
def Instr.opcode : Instr → Nibble
  | .mov _ _ => 0#4
  | .movi _ _ => 1#4
  | .add _ _ => 2#4
  | .sub _ _ => 2#4
  | .or _ _ => 2#4
  | .and _ _ => 2#4
  | .cmp _ _ => 2#4
  | .ld _ _ => 3#4
  | .st _ _ => 4#4
  | .b _ => 5#4
  | .beq _ => 5#4
  | .bz _ => 5#4

/-- What w[11:8] of the assembled word holds: the function (R88, R89), the register index of MOVI, LD and ST (R83), and 0
for MOV (R93, R102). -/
def Instr.func : Instr → Nibble
  | .mov _ _ => 0#4
  | .movi r _ => r
  | .add _ _ => 0#4
  | .sub _ _ => 1#4
  | .or _ _ => 2#4
  | .and _ _ => 3#4
  | .cmp _ _ => 4#4
  | .ld r _ => r
  | .st r _ => r
  | .b _ => 0#4
  | .beq _ => 1#4
  | .bz _ => 2#4

/-- The register form, fields from bit 15 down (R82). -/
def registerForm (opcode func rand1 rand2 : Nibble) : Word := opcode ++ func ++ rand1 ++ rand2

/-- The immediate form, fields from bit 15 down (R83). -/
def immediateForm (opcode func : Nibble) (imm8 : Byte) : Word := opcode ++ func ++ imm8

/-- The word the assembler writes for an instruction (R102, R105). MOV's func is 0 in it (R93, R100). -/
def encode : Instr → Word
  | .mov a b => registerForm 0#4 0#4 a b
  | .movi r imm => immediateForm 1#4 r imm
  | .add a b => registerForm 2#4 0#4 a b
  | .sub a b => registerForm 2#4 1#4 a b
  | .or a b => registerForm 2#4 2#4 a b
  | .and a b => registerForm 2#4 3#4 a b
  | .cmp a b => registerForm 2#4 4#4 a b
  | .ld r ai => immediateForm 3#4 r ai
  | .st r ai => immediateForm 4#4 r ai
  | .b imm => immediateForm 5#4 0#4 imm
  | .beq imm => immediateForm 5#4 1#4 imm
  | .bz imm => immediateForm 5#4 2#4 imm

/-- A word as the two bytes the image holds, low byte first (R106). -/
def wordBytes (w : Word) : List Byte := [lowByte w, highByte w]

/-- The flat byte stream of a list of instructions: two bytes each, in order, with no header (R106). -/
def imageOf (is : List Instr) : List Byte := is.flatMap fun i => wordBytes (encode i)

end Sys2Proof
end

