-- ==== Sys2Proof/Config.lean ====
section
/-!
DEFINITION. The implementation parameters (00_scope.md R6, 92_eei_decisions.md D20). A proof that depends on the sizing takes
it as a parameter: `State` carries a `Sizing`, so a statement about every state holds for every sizing (log 2).
-/

namespace Sys2Proof.Config

/-- LOAD_BASE, PROG_MEM_SIZE and DATA_MEM_SIZE (R6). Fixed for one machine: no step changes them. -/
structure Sizing where
  /-- LOAD_BASE: the program address of program-memory offset 0, and the reset vector (20_memory.md R51, R62). -/
  loadBase : Word
  /-- PROG_MEM_SIZE, in bytes. -/
  progMemSize : Nat
  /-- DATA_MEM_SIZE, in bytes. -/
  dataMemSize : Nat
deriving DecidableEq, Repr

/-- The reference sizing (R6, D20). -/
def reference : Sizing := { loadBase := 0x0400#16, progMemSize := 1024, dataMemSize := 1024 }

/-- The value `State.reset` gives sp. The spec leaves SP_RESET OPEN between DATA_MEM_SIZE and DATA_MEM_SIZE - 1
(92_eei_decisions.md D8). DESIGN CHOICE, unsafe (log 3). `State.launchState` takes any value. -/
def spReset : Word := 0x0400#16

/-- What a byte that nothing has loaded or stored reads as, in either memory. PROG_FILL and DATA_INIT are OPEN (D9, D10).
DESIGN CHOICE, unsafe (logs 4, 5). `State.launchState` takes any contents. -/
def unlistedByte : Byte := 0x00#8

end Sys2Proof.Config
end

