-- ==== Sys2Proof/Machine/State.lean ====
section
/-!
DEFINITION. The state of the block (10_state.md): the register file, the two memories and the run state. Nothing else is
state (R37, R39). The model adds one field of its own, the sizing (log 2).
-/

namespace Sys2Proof.Machine

open Sys2Proof

/-- The twelve register names (10_state.md R20). -/
inductive Reg where
  | a0 | a1 | a2 | a3 | t0 | t1 | t2 | t3
  /-- Index 8, the program counter (R27). -/
  | pc
  /-- Index 9, a register with no implicit use (R25). -/
  | lr
  /-- Index 10, the status register (R30). -/
  | sr
  /-- Index 11, special only in its reset value (R26). -/
  | sp
deriving DecidableEq, Repr

/-- The register file: exactly twelve 16-bit registers, none hardwired, banked or shadowed (R20, R23). -/
structure Regs where
  a0 : Word
  a1 : Word
  a2 : Word
  a3 : Word
  t0 : Word
  t1 : Word
  t2 : Word
  t3 : Word
  pc : Word
  lr : Word
  sr : Word
  sp : Word
deriving DecidableEq, Repr

/-- A memory: the bytes that differ from `Config.unlistedByte`, by rising address. `Memory.wf` (Ops.lean) is the canonical form. -/
abbrev Memory := List Host.Cell

/-- The five fatal kinds, each with what it records (60_exceptions.md R161). A cycle that meets one answers a NEXT state
whose run state is `fatal` (R160); a step from that state answers this fault (log 1), and no step leaves it (safe: the spec
says that the block performs no further cycle). -/
inductive Fault where
  /-- Raised by every cycle at fetch, when either byte of the word is outside program memory (20_memory.md R53). Safe. -/
  | fetchOutOfRange (address : Word)
  /-- Raised by decode: opcode 6..15 (30_encoding.md R90). Safe. -/
  | invalidOpcode (opcode : Nibble)
  /-- Raised by decode: ALU function 5..15 or BRANCH function 3..15 (30_encoding.md R91, R92). Safe. -/
  | invalidFunction (opcode func : Nibble)
  /-- Raised by MOV, MOVI, ADD, SUB, OR, AND, CMP, LD and ST: a named register index above 11 (10_state.md R24). Safe. -/
  | registerIndexOutOfRange (index : Nat)
  /-- Raised by LD and ST: an effective address at or above DATA_MEM_SIZE (20_memory.md R57). Safe. -/
  | dataAddressOutOfRange (address : Word)
deriving DecidableEq, Repr

/-- What has no meaning in the model. No step of the machine refuses: every instruction has its meaning. -/
inductive Refusal where
  /-- An instruction whose meaning is not written. Raised by no arm of `exec` (safe). -/
  | notModelled (mnemonic : String)
  /-- Raised by `State.launch` alone: the image does not fit in program memory (70_reset_and_hazards.md R182, D19). Safe. -/
  | imageTooLong (length : Nat)
deriving DecidableEq, Repr

/-- The run state (10_state.md R37), which the STATUS interface shows (20_memory.md R69). -/
inductive RunState where
  /-- The block executes cycles. -/
  | running
  /-- The terminal condition, with its kind and info (60_exceptions.md R160). -/
  | fatal (f : Fault)
deriving DecidableEq, Repr

/-- The whole state of the block. -/
structure State where
  /-- The register file, pc and sr in it (10_state.md R20, R22). -/
  regs : Regs
  /-- Program memory, by byte offset from LOAD_BASE (20_memory.md R51; log 8). -/
  prog : Memory
  /-- Data memory, by data address (20_memory.md R56). -/
  data : Memory
  /-- The run state (10_state.md R37). -/
  run : RunState
  /-- The MODEL's own field: this machine's parameters (00_scope.md R6; log 2). No step changes it. -/
  sizing : Config.Sizing
deriving DecidableEq, Repr

/-- The state right after reset (10_state.md R38) under the reference sizing, with no image loaded. sp, program memory and
data memory take the values of logs 3, 4 and 5, where the spec leaves them OPEN; `State.launchState` takes any. -/
def State.reset : State where
  regs :=
    { a0 := 0#16, a1 := 0#16, a2 := 0#16, a3 := 0#16, t0 := 0#16, t1 := 0#16, t2 := 0#16, t3 := 0#16
      pc := Config.reference.loadBase, lr := 0#16, sr := 0#16, sp := Config.spReset }
  prog := []
  data := []
  run := .running
  sizing := Config.reference

end Sys2Proof.Machine
end

