-- ==== Sys2Proof/Machine/Ops.lean ====
section
/-!
DEFINITION. The named operations over registers and memories (00_scope.md R10, R11), the block's two memory interfaces
(20_memory.md R69) and the fatal stop (00_scope.md R12). There is no trap entry and no trap return (60_exceptions.md R165,
R166): the fatal stop is the only exception primitive, and only reset leaves it (Launch.lean).
-/

namespace Sys2Proof.Machine

open Sys2Proof

/-- What a cycle answers. -/
abbrev Result := Host.Outcome State Fault Refusal

/-! ### Registers -/

/-- `x[i]`, by name (00_scope.md R10). -/
def Regs.get (x : Regs) : Reg → Word
  | .a0 => x.a0 | .a1 => x.a1 | .a2 => x.a2 | .a3 => x.a3
  | .t0 => x.t0 | .t1 => x.t1 | .t2 => x.t2 | .t3 => x.t3
  | .pc => x.pc | .lr => x.lr | .sr => x.sr | .sp => x.sp

/-- `x[i] <- v`, by name (00_scope.md R10). No register is hardwired (10_state.md R23). -/
def Regs.set (x : Regs) (r : Reg) (v : Word) : Regs :=
  match r with
  | .a0 => { x with a0 := v } | .a1 => { x with a1 := v } | .a2 => { x with a2 := v } | .a3 => { x with a3 := v }
  | .t0 => { x with t0 := v } | .t1 => { x with t1 := v } | .t2 => { x with t2 := v } | .t3 => { x with t3 := v }
  | .pc => { x with pc := v } | .lr => { x with lr := v } | .sr => { x with sr := v } | .sp => { x with sp := v }

/-- Read a register of the machine. -/
def State.reg (s : State) (r : Reg) : Word := s.regs.get r

/-- Write a register of the machine. -/
def State.setReg (s : State) (r : Reg) (v : Word) : State := { s with regs := s.regs.set r v }

/-! ### Memories -/

/-- The byte at an address; an unlisted one reads as `Config.unlistedByte` (logs 4, 5). -/
def Memory.read : Memory → Nat → Byte
  | [], _ => Config.unlistedByte
  | (b, w) :: m, a => if a = b then w else Memory.read m a

/-- The memory with an address unlisted. -/
def Memory.erase (m : Memory) (a : Nat) : Memory := m.filter fun c => decide (c.1 ≠ a)

/-- List a byte before the first higher address. -/
def Memory.insert : Memory → Nat → Byte → Memory
  | [], a, v => [(a, v)]
  | (b, w) :: m, a, v => if a < b then (a, v) :: (b, w) :: m else (b, w) :: Memory.insert m a v

/-- Store a byte, keeping the canonical form: the value an unlisted address reads as removes the entry. -/
def Memory.write (m : Memory) (a : Nat) (v : Byte) : Memory :=
  if v = Config.unlistedByte then m.erase a else (m.erase a).insert a v

/-- The canonical form from an address on: addresses strictly rising from `lo`, no entry equal to the unlisted byte. -/
def Memory.wfFrom : Nat → Memory → Bool
  | _, [] => true
  | lo, (a, v) :: m => decide (lo ≤ a) && decide (v ≠ Config.unlistedByte) && Memory.wfFrom (a + 1) m

/-- The canonical form, in which memories that read the same are equal. -/
def Memory.wf (m : Memory) : Bool := Memory.wfFrom 0 m

/-- Every listed address is below `n`: a memory of `n` bytes lists no byte that does not exist. -/
def Memory.within (n : Nat) (m : Memory) : Bool := m.all fun c => decide (c.1 < n)

/-- The memory of `n` bytes whose byte `a` is `f a`. -/
def Memory.ofBytes : Nat → (Nat → Byte) → Memory
  | 0, _ => []
  | n + 1, f => Memory.write (Memory.ofBytes n f) n (f n)

/-! ### The program-memory interface IFETCH (20_memory.md R69) -/

/-- The program-memory byte offset of a program address (20_memory.md R51); meaningful at or above LOAD_BASE. -/
def State.progOffset (s : State) (a : Word) : Nat := a.toNat - s.sizing.loadBase.toNat

/-- Both bytes of a fetch are in program memory (20_memory.md R53). There is no alignment check (R54). -/
def State.fetchInBounds (s : State) (a : Word) : Bool :=
  decide (s.sizing.loadBase.toNat ≤ a.toNat) && decide (s.progOffset a + 1 < s.sizing.progMemSize)

/-- `FetchWord(a)` (20_memory.md R52): little-endian, `none` when out of bounds (R53). -/
def State.fetchWord (s : State) (a : Word) : Option Word :=
  if s.fetchInBounds a then
    some (wordOfBytes (s.prog.read (s.progOffset a)) (s.prog.read (s.progOffset a + 1)))
  else none

/-! ### The data-memory interface DMEM (20_memory.md R69) -/

/-- A data address is in bounds (20_memory.md R56, R57). -/
def State.dataInBounds (s : State) (a : Word) : Bool := decide (a.toNat < s.sizing.dataMemSize)

/-- `MemRead(a, 1)`: `none` when out of bounds (20_memory.md R57). -/
def State.dmemRead (s : State) (a : Word) : Option Byte :=
  if s.dataInBounds a then some (s.data.read a.toNat) else none

/-- Replace the contents of data memory. -/
def State.setData (s : State) (m : Memory) : State := { s with data := m }

/-- `MemWrite(a, 1, v)`: `none` when out of bounds, and then nothing is written (20_memory.md R57). -/
def State.dmemWrite (s : State) (a : Word) (v : Byte) : Option State :=
  if s.dataInBounds a then some (s.setData (s.data.write a.toNat v)) else none

/-! ### The fatal stop -/

/-- Enter the terminal run state; nothing else changes (60_exceptions.md R160). -/
def State.stop (s : State) (f : Fault) : State := { s with run := .fatal f }

/-- `raise Fatal(kind, info)` (00_scope.md R12): the instruction ends with no further effect. The answer is a NEXT state,
since the spec says what state is left: the run state becomes `Fatal(kind, info)` and nothing is saved (60_exceptions.md R160). -/
def raise (f : Fault) (s : State) : Result := .next (s.stop f)

end Sys2Proof.Machine
end

