-- ==== Sys2Proof/Machine/Operands.lean ====
section
/-!
DEFINITION. Operand forms: register indices (10_state.md R20, R24; 00_scope.md R10) and immediates (30_encoding.md R85).
-/

namespace Sys2Proof.Machine

open Sys2Proof

/-- The index of a register (10_state.md R20). -/
def Reg.index : Reg → Nat
  | .a0 => 0 | .a1 => 1 | .a2 => 2 | .a3 => 3
  | .t0 => 4 | .t1 => 5 | .t2 => 6 | .t3 => 7
  | .pc => 8 | .lr => 9 | .sr => 10 | .sp => 11

/-- The register an index selects; `none` outside 0..11 (10_state.md R24). -/
def Reg.ofIndex : Nat → Option Reg
  | 0 => some .a0 | 1 => some .a1 | 2 => some .a2 | 3 => some .a3
  | 4 => some .t0 | 5 => some .t1 | 6 => some .t2 | 7 => some .t3
  | 8 => some .pc | 9 => some .lr | 10 => some .sr | 11 => some .sp
  | _ => none

/-- The 4-bit field that names a register (30_encoding.md R86). -/
def Reg.field (r : Reg) : Nibble := BitVec.ofNat 4 r.index

/-- The 8-bit address-register index of LD and ST that names a register (30_encoding.md R85). -/
def Reg.addrField (r : Reg) : Byte := BitVec.ofNat 8 r.index

/-- `check_reg(i)`, then the rest of the instruction on the register it names (00_scope.md R10). An index outside 0..11
stops with `RegisterIndexOutOfRange` before any access (10_state.md R24). -/
def withReg (i : Nat) (s : State) (k : Reg → Result) : Result :=
  match Reg.ofIndex i with
  | some r => k r
  | none => raise (.registerIndexOutOfRange i) s

/-- `check_reg(i); check_reg(j)`, in that order, then the rest of the instruction (00_scope.md R10, 60_exceptions.md R162). -/
def withRegs (i j : Nat) (s : State) (k : Reg → Reg → Result) : Result :=
  withReg i s fun p => withReg j s fun q => k p q

/-- `zext_16` (00_scope.md R9). -/
def zext16 (b : Byte) : Word := b.setWidth 16

end Sys2Proof.Machine
end

