-- ==== Sys2Proof/Machine/Cycle.lean ====
section
/-!
DEFINITION. The instruction cycle (30_encoding.md R96 to R99): fetch, pc increment, decode, execute.
-/

namespace Sys2Proof.Machine

open Sys2Proof

/-- `x[8] <- a + 2 (mod 2^16)`, after the fetch and before decode (30_encoding.md R97, 10_state.md R28). -/
def State.advancePc (s : State) : State := s.setReg .pc (s.reg .pc + 2#16)

/-- What follows the pc increment: decode, then execute by `execute` (30_encoding.md R98, R99). A decode fault keeps the
incremented pc (R97). -/
def dispatchWord (execute : Instr → State → Result) (w : Word) (s : State) : Result :=
  match decode w with
  | .instr i => execute i s
  | .invalidOpcode op => raise (.invalidOpcode op) s
  | .invalidFunction op fn => raise (.invalidFunction op fn) s

/-- One cycle (30_encoding.md R96). A fetch out of range leaves pc (20_memory.md R53). In `Fatal` the block performs no
cycle (60_exceptions.md R160): the fault is what STATUS reports (log 1). -/
def cycle (execute : Instr → State → Result) (s : State) : Result :=
  match s.run with
  | .fatal f => .fault f
  | .running =>
    match s.fetchWord (s.reg .pc) with
    | none => raise (.fetchOutOfRange (s.reg .pc)) s
    | some w => dispatchWord execute w s.advancePc

/-- The two bytes of a word at a program-memory offset, low byte first (20_memory.md R52). -/
def Memory.putWord (m : Memory) (off : Nat) (w : Word) : Memory :=
  (m.write off (lowByte w)).write (off + 1) (highByte w)

/-- LOAD one word where the next cycle fetches (20_memory.md R69). Where that fetch is out of range there is no byte to
load, and nothing changes (log 7). -/
def State.placeWord (s : State) (w : Word) : State :=
  if s.fetchInBounds (s.reg .pc) then { s with prog := s.prog.putWord (s.progOffset (s.reg .pc)) w } else s

end Sys2Proof.Machine
end

