-- ==== Sys2Proof/Machine/Flags.lean ====
section
/-!
DEFINITION. The two flags of sr (10_state.md R30 to R33).
-/

namespace Sys2Proof.Machine

open Sys2Proof

/-- The Zero flag, sr bit 0 (10_state.md R31). -/
def State.zFlag (s : State) : Bool := (s.reg .sr).getLsbD 0

/-- The Equal flag, sr bit 1 (10_state.md R32). -/
def State.eFlag (s : State) : Bool := (s.reg .sr).getLsbD 1

/-- The Z update of ADD, SUB, OR and AND: set on a zero result, never cleared; sr is read after the register write
(41_alu.md R130). -/
def State.noteZero (s : State) (res : Word) : State :=
  if res = 0#16 then s.setReg .sr (s.reg .sr ||| 0x0001#16) else s

/-- The E update of CMP: set or cleared, every other bit of sr kept (41_alu.md R135). -/
def State.noteEqual (s : State) (equal : Bool) : State :=
  s.setReg .sr (if equal then s.reg .sr ||| 0x0002#16 else s.reg .sr &&& ~~~(0x0002#16))

end Sys2Proof.Machine
end

