-- ==== Sys2Proof/Machine/Alu.lean ====
section
/-!
DEFINITION. ADD, SUB, OR, AND and CMP (41_alu.md).
-/

namespace Sys2Proof.Machine

open Sys2Proof

/-- The common behaviour of ADD, SUB, OR and AND (41_alu.md R130): both operands are read before the write, the Z update
follows it. -/
def aluOp (op : Word → Word → Word) (rand1 rand2 : Nibble) (s : State) : Result :=
  withRegs rand1.toNat rand2.toNat s fun d r =>
    .next ((s.setReg d (op (s.reg d) (s.reg r))).noteZero (op (s.reg d) (s.reg r)))

/-- ADD, modulo 2^16 (41_alu.md R131). -/
def execAdd (rand1 rand2 : Nibble) (s : State) : Result := aluOp (fun x y => x + y) rand1 rand2 s

/-- SUB, modulo 2^16: rand1 is the minuend (41_alu.md R132). -/
def execSub (rand1 rand2 : Nibble) (s : State) : Result := aluOp (fun x y => x - y) rand1 rand2 s

/-- OR (41_alu.md R133). -/
def execOr (rand1 rand2 : Nibble) (s : State) : Result := aluOp (fun x y => x ||| y) rand1 rand2 s

/-- AND (41_alu.md R134). -/
def execAnd (rand1 rand2 : Nibble) (s : State) : Result := aluOp (fun x y => x &&& y) rand1 rand2 s

/-- CMP: E is set if the two registers are equal and cleared if not; nothing else changes (41_alu.md R135). -/
def execCmp (rand1 rand2 : Nibble) (s : State) : Result :=
  withRegs rand1.toNat rand2.toNat s fun p q => .next (s.noteEqual (s.reg p == s.reg q))

end Sys2Proof.Machine
end

