-- ==== Sys2Proof/Machine/Branch.lean ====
section
/-!
DEFINITION. B, BEQ and BZ (43_branch.md): the target is absolute, neither scaled nor relative (90_conflicts.md C4). A target
outside program memory is reported by the next fetch.
-/

namespace Sys2Proof.Machine

open Sys2Proof

/-- `pc <- zext_16(imm8)` when the condition holds; pc keeps fetch address + 2 when it does not. -/
def branchIf (taken : Bool) (imm8 : Byte) (s : State) : State := if taken then s.setReg .pc (zext16 imm8) else s

/-- B (43_branch.md R150). -/
def execB (imm8 : Byte) (s : State) : Result := .next (branchIf true imm8 s)

/-- BEQ: taken if the Equal flag is set (43_branch.md R151). -/
def execBeq (imm8 : Byte) (s : State) : Result := .next (branchIf s.eFlag imm8 s)

/-- BZ: taken if the Zero flag is set (43_branch.md R152). -/
def execBz (imm8 : Byte) (s : State) : Result := .next (branchIf s.zFlag imm8 s)

end Sys2Proof.Machine
end

