-- ==== Sys2Proof/Machine/LoadStore.lean ====
section
/-!
DEFINITION. LD and ST (42_load_store.md): register indirect, one byte.
-/

namespace Sys2Proof.Machine

open Sys2Proof

/-- LD: `x[r] <- zext_16(data[x[ai]])`; the address is read before the register is written (42_load_store.md R140). -/
def execLd (r : Nibble) (ai : Byte) (s : State) : Result :=
  withRegs r.toNat ai.toNat s fun d a =>
    match s.dmemRead (s.reg a) with
    | some v => .next (s.setReg d (zext16 v))
    | none => raise (.dataAddressOutOfRange (s.reg a)) s

/-- ST: `data[x[ai]] <- x[r][7:0]` (42_load_store.md R141). -/
def execSt (r : Nibble) (ai : Byte) (s : State) : Result :=
  withRegs r.toNat ai.toNat s fun v a =>
    match s.dmemWrite (s.reg a) (lowByte (s.reg v)) with
    | some t => .next t
    | none => raise (.dataAddressOutOfRange (s.reg a)) s

end Sys2Proof.Machine
end

