-- ==== Sys2Proof/Machine/Mov.lean ====
section
/-!
DEFINITION. MOV and MOVI (40_mov.md). Every meaning runs after the fetch and the pc increment: x[8] holds fetch address + 2.
-/

namespace Sys2Proof.Machine

open Sys2Proof

/-- MOV: `x[rand1] <- x[rand2]` (40_mov.md R120). -/
def execMov (rand1 rand2 : Nibble) (s : State) : Result :=
  withRegs rand1.toNat rand2.toNat s fun d r => .next (s.setReg d (s.reg r))

/-- MOVI: `x[r] <- zext_16(imm8)` (40_mov.md R121). -/
def execMovi (r : Nibble) (imm8 : Byte) (s : State) : Result :=
  withReg r.toNat s fun d => .next (s.setReg d (zext16 imm8))

end Sys2Proof.Machine
end

