-- ==== Sys2Proof/Machine/Dispatch.lean ====
section
/-! DEFINITION. Execute (30_encoding.md R99): one arm per instruction. -/

namespace Sys2Proof.Machine

open Sys2Proof

def exec (i : Instr) (s : State) : Host.Outcome State Fault Refusal :=
  match i with
  | .mov rand1 rand2 => Sys2Proof.Machine.execMov rand1 rand2 s
  | .movi r imm8 => Sys2Proof.Machine.execMovi r imm8 s
  | .add rand1 rand2 => Sys2Proof.Machine.execAdd rand1 rand2 s
  | .sub rand1 rand2 => Sys2Proof.Machine.execSub rand1 rand2 s
  | .or rand1 rand2 => Sys2Proof.Machine.execOr rand1 rand2 s
  | .and rand1 rand2 => Sys2Proof.Machine.execAnd rand1 rand2 s
  | .cmp rand1 rand2 => Sys2Proof.Machine.execCmp rand1 rand2 s
  | .ld r ai => Sys2Proof.Machine.execLd r ai s
  | .st r ai => Sys2Proof.Machine.execSt r ai s
  | .b imm8 => Sys2Proof.Machine.execB imm8 s
  | .beq imm8 => Sys2Proof.Machine.execBeq imm8 s
  | .bz imm8 => Sys2Proof.Machine.execBz imm8 s

end Sys2Proof.Machine
end

