-- ==== Sys2Proof/Machine/Step.lean ====
section
/-! DEFINITION. One step of the block is one instruction cycle (30_encoding.md R96, 70_reset_and_hazards.md R195). -/

namespace Sys2Proof.Machine

open Sys2Proof

/-- One step: the cycle of `Cycle.lean`, executing by `exec`. -/
def step (s : State) : Host.Outcome State Fault Refusal := cycle exec s

/-- `s` with the instruction whose `nbits` low bits are `w` (the bits above them zero) in program memory where the next
step fetches. It stands for the LOAD interface (log 6). -/
def State.withFetchWord (s : State) (nbits w : Nat) : State := s.placeWord (BitVec.ofNat 16 (w % 2 ^ nbits))

end Sys2Proof.Machine
end

