-- ==== Sys2Proof/Machine/AsmText.lean ====
section
/-!
DEFINITION. The assembler's notation (30_encoding.md R101 to R106, R110; 10_state.md R20, R21): it is not hardware
(00_scope.md R4), and no step reads it. `none` is every spelling the spec does not admit (93_implementation_defined.md U21);
the diagnostics of R108 and the label lines of R107 are left out (log 11).
-/

namespace Sys2Proof.Machine

open Sys2Proof

/-- The architectural name of a register (10_state.md R20). -/
def Reg.name : Reg → String
  | .a0 => "a0" | .a1 => "a1" | .a2 => "a2" | .a3 => "a3"
  | .t0 => "t0" | .t1 => "t1" | .t2 => "t2" | .t3 => "t3"
  | .pc => "pc" | .lr => "lr" | .sr => "sr" | .sp => "sp"

/-- Every register, by index (10_state.md R20). -/
def Reg.all : List Reg := [.a0, .a1, .a2, .a3, .t0, .t1, .t2, .t3, .pc, .lr, .sr, .sp]

/-- The register a name stands for; no other string names one (10_state.md R21). -/
def Reg.ofName (n : String) : Option Reg := Reg.all.find? fun r => r.name == n

/-- The twelve mnemonics (30_encoding.md R102). -/
inductive Mnemonic where
  | mov | movi | add | sub | or | and | cmp | ld | st | b | beq | bz
deriving DecidableEq, Repr

/-- Every mnemonic, in the order of R102. -/
def Mnemonic.all : List Mnemonic := [.mov, .movi, .add, .sub, .or, .and, .cmp, .ld, .st, .b, .beq, .bz]

/-- The spelling of a mnemonic (30_encoding.md R102). -/
def Mnemonic.text : Mnemonic → String
  | .mov => "mov" | .movi => "movi" | .add => "add" | .sub => "sub" | .or => "or" | .and => "and"
  | .cmp => "cmp" | .ld => "ld" | .st => "st" | .b => "b" | .beq => "beq" | .bz => "bz"

/-- The mnemonic a token spells; an unknown one never gives a word (30_encoding.md R102). -/
def Mnemonic.ofText (t : String) : Option Mnemonic := Mnemonic.all.find? fun m => m.text == t

/-- An operand: a register name with its sigil (30_encoding.md R103) or a decimal number (R104). -/
inductive AsmOperand where
  | reg (r : Reg)
  | num (n : Nat)
deriving DecidableEq, Repr

/-- The number of an immediate operand; only 0..255 are admitted (30_encoding.md R104). -/
def imm8OfNat (n : Nat) : Option Byte := if n ≤ 255 then some (BitVec.ofNat 8 n) else none

/-- A mnemonic with its operands, by the forms of 30_encoding.md R105; any other count or kind gives none. -/
def assemble : Mnemonic → List AsmOperand → Option Instr
  | .mov, [.reg d, .reg q] => some (.mov d.field q.field)
  | .add, [.reg d, .reg q] => some (.add d.field q.field)
  | .sub, [.reg d, .reg q] => some (.sub d.field q.field)
  | .or, [.reg d, .reg q] => some (.or d.field q.field)
  | .and, [.reg d, .reg q] => some (.and d.field q.field)
  | .cmp, [.reg d, .reg q] => some (.cmp d.field q.field)
  | .movi, [.reg r, .num n] => (imm8OfNat n).map fun v => .movi r.field v
  | .ld, [.reg r, .num n] => (imm8OfNat n).map fun v => .ld r.field v
  | .st, [.reg r, .num n] => (imm8OfNat n).map fun v => .st r.field v
  | .b, [.num n] => (imm8OfNat n).map fun v => .b v
  | .beq, [.num n] => (imm8OfNat n).map fun v => .beq v
  | .bz, [.num n] => (imm8OfNat n).map fun v => .bz v
  | _, _ => none

/-- The number a nonempty string of decimal digits spells (30_encoding.md R104). -/
def decimal : List Char → Option Nat
  | [] => none
  | cs => if cs.all Char.isDigit then some (cs.foldl (fun n c => 10 * n + (c.toNat - 48)) 0) else none

/-- The operand a token spells: the sigil and a register name (30_encoding.md R103), or a decimal number (R104). -/
def parseOperand (t : String) : Option AsmOperand :=
  match t.toList with
  | '$' :: name => (Reg.ofName (String.ofList name)).map .reg
  | cs => (decimal cs).map .num

/-- One line's tokens: the mnemonic, then the operands; exactly one instruction (30_encoding.md R101, R109). -/
def assembleTokens : List String → Option Instr
  | [] => none
  | m :: ops =>
    match Mnemonic.ofText m, ops.mapM parseOperand with
    | some mn, some os => assemble mn os
    | _, _ => none

/-- The word the assembler writes for a line's tokens (30_encoding.md R105). -/
def assembleWord (tokens : List String) : Option Word := (assembleTokens tokens).map encode

/-- A character that separates tokens (30_encoding.md R101). -/
def isWhite (c : Char) : Bool := c == ' ' || c == '\t' || c == '\r' || c == '\n'

/-- The runs of characters between white space, `cur` being the run read so far, in reverse. -/
def splitWhite : List Char → List Char → List (List Char)
  | cur, [] => if cur.isEmpty then [] else [cur.reverse]
  | cur, c :: cs =>
    if isWhite c then (if cur.isEmpty then splitWhite [] cs else cur.reverse :: splitWhite [] cs)
    else splitWhite (c :: cur) cs

/-- The word the assembler writes for one source line (30_encoding.md R101, R105). -/
def assembleLine (line : String) : Option Word := assembleWord ((splitWhite [] line.toList).map String.ofList)

/-- A register field as text; a field of 12..15 has no name (30_encoding.md R110, D26). -/
def fieldText (f : Nibble) : String :=
  match Reg.ofIndex f.toNat with
  | some r => "$" ++ r.name
  | none => "$r" ++ toString f.toNat

/-- The text form of a decoded word, as tokens (30_encoding.md R110). -/
def disassemble : Instr → List String
  | .mov x y => ["mov", fieldText x, fieldText y]
  | .movi r n => ["movi", fieldText r, toString n.toNat]
  | .add x y => ["add", fieldText x, fieldText y]
  | .sub x y => ["sub", fieldText x, fieldText y]
  | .or x y => ["or", fieldText x, fieldText y]
  | .and x y => ["and", fieldText x, fieldText y]
  | .cmp x y => ["cmp", fieldText x, fieldText y]
  | .ld r n => ["ld", fieldText r, toString n.toNat]
  | .st r n => ["st", fieldText r, toString n.toNat]
  | .b n => ["b", toString n.toNat]
  | .beq n => ["beq", toString n.toNat]
  | .bz n => ["bz", toString n.toNat]

/-- Every 4-bit register field has a name, so the assembler can write the instruction; the address-register index of LD and
ST is a number, and any of 0..255 can be written (30_encoding.md R105, R110). -/
def hasText : Instr → Bool
  | .mov x y => validIndex x.toNat && validIndex y.toNat
  | .movi r _ => validIndex r.toNat
  | .add x y => validIndex x.toNat && validIndex y.toNat
  | .sub x y => validIndex x.toNat && validIndex y.toNat
  | .or x y => validIndex x.toNat && validIndex y.toNat
  | .and x y => validIndex x.toNat && validIndex y.toNat
  | .cmp x y => validIndex x.toNat && validIndex y.toNat
  | .ld r _ => validIndex r.toNat
  | .st r _ => validIndex r.toNat
  | .b _ => true
  | .beq _ => true
  | .bz _ => true

end Sys2Proof.Machine
end

