-- ==== Sys2Proof/Machine/Launch.lean ====
section
/-!
DEFINITION. Startup, the LOAD and RESET interfaces (10_state.md R38, 20_memory.md R69, 70_reset_and_hazards.md R180, R182).
What the spec leaves OPEN (SP_RESET, PROG_FILL, DATA_INIT) are arguments, so a claim quantifies over them (D8, D9, D10).
-/

namespace Sys2Proof.Machine

open Sys2Proof

/-- The registers at startup: zero, but for pc and sp (10_state.md R38). -/
def launchRegs (pc sp : Word) : Regs :=
  { a0 := 0#16, a1 := 0#16, a2 := 0#16, a3 := 0#16, t0 := 0#16, t1 := 0#16, t2 := 0#16, t3 := 0#16
    pc := pc, lr := 0#16, sr := 0#16, sp := sp }

/-- Program-memory byte `k` at startup: the image verbatim, then PROG_FILL (70_reset_and_hazards.md R182). -/
def imageByte (image : List Byte) (progFill : Nat → Byte) (k : Nat) : Byte := image.getD k (progFill k)

/-- The state at startup (10_state.md R38, 70_reset_and_hazards.md R180). -/
def State.launchState (z : Config.Sizing) (image : List Byte) (spReset : Word) (progFill dataInit : Nat → Byte) : State where
  regs := launchRegs z.loadBase spReset
  prog := Memory.ofBytes z.progMemSize (imageByte image progFill)
  data := Memory.ofBytes z.dataMemSize dataInit
  run := .running
  sizing := z

/-- LOAD and start: an image longer than program memory is refused before the run (70_reset_and_hazards.md R182, D19). -/
def State.launch (z : Config.Sizing) (image : List Byte) (spReset : Word) (progFill dataInit : Nat → Byte) : Result :=
  if image.length ≤ z.progMemSize then .next (State.launchState z image spReset progFill dataInit)
  else .refused (.imageTooLong image.length)

/-- RESET, at any time, has exactly the effect of startup, image, fill and data drawn anew; nothing survives but the
machine's sizing (70_reset_and_hazards.md R180, D24). It is the only way out of a fatal stop (60_exceptions.md R160). -/
def State.resetInput (s : State) (image : List Byte) (spReset : Word) (progFill dataInit : Nat → Byte) : Result :=
  State.launch s.sizing image spReset progFill dataInit

end Sys2Proof.Machine
end

