-- ==== Sys2Proof/Safety.lean ====
section
/-!
DEFINITION. The terms in which claims about the machine are stated: what a transition leaves unchanged, the invariant of a
state, which fatal condition the spec's order reports, runs, and the observer's end point.
-/

namespace Sys2Proof.Machine

open Sys2Proof

/-! ### Frames, read through one register or one byte at a time -/

/-- Only registers may differ: every byte of both memories, the run state and the sizing are as before. -/
def OnlyRegistersChange (s t : State) : Prop :=
  (∀ a, t.data.read a = s.data.read a) ∧ (∀ a, t.prog.read a = s.prog.read a) ∧ t.run = s.run ∧ t.sizing = s.sizing

/-- Register `d` becomes `v`; every other register, every byte, the run state and the sizing are as before. -/
def WritesOnly (s t : State) (d : Reg) (v : Word) : Prop :=
  t.reg d = v ∧ (∀ p, p ≠ d → t.reg p = s.reg p) ∧ OnlyRegistersChange s t

/-- The block has stopped with `f` and nothing else changed: no register, no flag, no byte (60_exceptions.md R160). -/
def StopsUnchanged (s t : State) (f : Fault) : Prop :=
  t.run = .fatal f ∧ (∀ p, t.reg p = s.reg p) ∧ (∀ a, t.data.read a = s.data.read a) ∧
    (∀ a, t.prog.read a = s.prog.read a) ∧ t.sizing = s.sizing

/-- Two register fields, checked rand1 then rand2: the first that names no register stops the instruction with its index
(10_state.md R24, 40_mov.md R120). -/
def RegisterFormStops (mk : Nibble → Nibble → Instr) : Prop :=
  (∀ (x y : Nibble) (s : State), 11 < x.toNat →
    ∃ t, exec (mk x y) s = .next t ∧ StopsUnchanged s t (.registerIndexOutOfRange x.toNat)) ∧
  (∀ (x y : Nibble) (s : State), x.toNat ≤ 11 → 11 < y.toNat →
    ∃ t, exec (mk x y) s = .next t ∧ StopsUnchanged s t (.registerIndexOutOfRange y.toNat))

/-- The register form of one ALU function (41_alu.md): its encoding, its notation and its two fatal conditions. -/
def AluForm (func : Nibble) (mn : Mnemonic) (mk : Nibble → Nibble → Instr) : Prop :=
  (∀ x y : Nibble, decode (2#4 ++ func ++ x ++ y) = .instr (mk x y)) ∧
  (∀ d q : Reg, assemble mn [.reg d, .reg q] = some (mk d.field q.field)) ∧
  RegisterFormStops mk

/-- The effect ADD, SUB, OR and AND share (41_alu.md R130), with the result given by the relation `rel x[rand1] x[rand2] res`:
the result is written to the destination; then, reading sr after that write, Z is set if the result is 0 and sr is
otherwise as the write left it; nothing else changes. -/
def AluEffect (mk : Nibble → Nibble → Instr) (rel : Word → Word → Word → Prop) : Prop :=
  ∀ (d q : Reg) (s : State), ∃ (t : State) (res srWritten : Word),
    exec (mk d.field q.field) s = .next t ∧ rel (s.reg d) (s.reg q) res ∧
    (d ≠ .sr → t.reg d = res) ∧
    srWritten = (if d = .sr then res else s.reg .sr) ∧
    t.reg .sr = (if res = 0#16 then srWritten ||| 0x0001#16 else srWritten) ∧
    (∀ p, p ≠ d → p ≠ .sr → t.reg p = s.reg p) ∧ OnlyRegistersChange s t

/-- What the next fetch does when `t` holds a pc outside LOAD_BASE .. LOAD_BASE + PROG_MEM_SIZE - 2 (43_branch.md R150):
the block stops with FetchOutOfRange at that address, and pc keeps it. -/
def NextFetchStopsOutside (t : State) : Prop :=
  t.run = .running →
  ((t.reg .pc).toNat < t.sizing.loadBase.toNat ∨
    ((t.sizing.loadBase.toNat : Int) + t.sizing.progMemSize - 2 < (t.reg .pc).toNat)) →
  ∃ u, step t = .next u ∧ StopsUnchanged t u (.fetchOutOfRange (t.reg .pc))

/-- A branch is taken: pc becomes the zero-extended immediate, nothing else changes, and the next fetch is at that target. -/
def TakesBranch (i : Instr) (imm8 : Byte) (s : State) : Prop :=
  ∃ t, exec i s = .next t ∧ (t.reg .pc).toNat = imm8.toNat ∧ (∀ p, p ≠ .pc → t.reg p = s.reg p) ∧
    OnlyRegistersChange s t ∧ NextFetchStopsOutside t

/-- A branch is not taken: nothing changes, so pc keeps fetch address + 2. -/
def FallsThrough (i : Instr) (s : State) : Prop :=
  ∃ t, exec i s = .next t ∧ (∀ p, t.reg p = s.reg p) ∧ OnlyRegistersChange s t

/-- `t` holds the value of every piece of state at startup (10_state.md R38), for a sizing, an image that fits, SP_RESET,
PROG_FILL and DATA_INIT. -/
def StartupValues (z : Config.Sizing) (image : List Byte) (sp0 : Word) (progFill dataInit : Nat → Byte) (t : State) : Prop :=
  t.reg .pc = z.loadBase ∧ t.reg .sp = sp0 ∧ (∀ p, p ≠ .pc → p ≠ .sp → t.reg p = 0#16) ∧
    t.zFlag = false ∧ t.eFlag = false ∧
    (∀ (k : Nat) (h : k < image.length), t.prog.read k = image[k]) ∧
    (∀ k, image.length ≤ k → k < z.progMemSize → t.prog.read k = progFill k) ∧
    (∀ a, a < z.dataMemSize → t.data.read a = dataInit a) ∧
    t.run = .running ∧ t.sizing = z

/-! ### The invariant -/

/-- Both memories are in canonical form and list no byte that does not exist (10_state.md R35, R36). -/
abbrev State.Inv (s : State) : Prop :=
  s.prog.wf = true ∧ s.data.wf = true ∧
    s.prog.within s.sizing.progMemSize = true ∧ s.data.within s.sizing.dataMemSize = true

/-! ### Which instruction a cycle runs, and what it stores -/

/-- The instruction the next cycle runs, if it gets as far as execute (30_encoding.md R96). -/
def State.nextInstr (s : State) : Option Instr :=
  match s.run, s.fetchWord (s.reg .pc) with
  | .running, some w =>
    match decode w with
    | .instr i => some i
    | _ => none
  | _, _ => none

/-- The address and byte the next cycle stores, if it stores one: ST with both registers existing and its address in
bounds, on the registers as they are after the pc increment (42_load_store.md R141). -/
def State.nextStore (s : State) : Option (Nat × Byte) :=
  match s.nextInstr with
  | some (.st r ai) =>
    match Reg.ofIndex r.toNat, Reg.ofIndex ai.toNat with
    | some v, some a =>
      if s.advancePc.dataInBounds (s.advancePc.reg a) then
        some ((s.advancePc.reg a).toNat, lowByte (s.advancePc.reg v))
      else none
    | _, _ => none
  | _ => none

end Sys2Proof.Machine

/-! ### The register fields of an instruction (10_state.md R23) -/

namespace Sys2Proof

open Sys2Proof.Machine

/-- The register index an instruction writes as its destination. -/
def Instr.destIndex : Instr → Option Nat
  | .mov x _ => some x.toNat
  | .movi r _ => some r.toNat
  | .add x _ => some x.toNat
  | .sub x _ => some x.toNat
  | .or x _ => some x.toNat
  | .and x _ => some x.toNat
  | .cmp _ _ => none
  | .ld r _ => some r.toNat
  | .st _ _ => none
  | .b _ => none
  | .beq _ => none
  | .bz _ => none

/-- ADD, SUB, OR or AND: the instructions that may set Z (10_state.md R31). -/
def Instr.setsZero : Instr → Bool
  | .mov _ _ => false
  | .movi _ _ => false
  | .add _ _ => true
  | .sub _ _ => true
  | .or _ _ => true
  | .and _ _ => true
  | .cmp _ _ => false
  | .ld _ _ => false
  | .st _ _ => false
  | .b _ => false
  | .beq _ => false
  | .bz _ => false

/-- CMP: the one instruction that writes E as a flag (10_state.md R32). -/
def Instr.isCmp : Instr → Bool
  | .mov _ _ => false
  | .movi _ _ => false
  | .add _ _ => false
  | .sub _ _ => false
  | .or _ _ => false
  | .and _ _ => false
  | .cmp _ _ => true
  | .ld _ _ => false
  | .st _ _ => false
  | .b _ => false
  | .beq _ => false
  | .bz _ => false

/-- A branch that is taken in `s` (43_branch.md R150 to R152). -/
def Instr.takenIn (i : Instr) (s : State) : Bool :=
  match i with
  | .mov _ _ => false
  | .movi _ _ => false
  | .add _ _ => false
  | .sub _ _ => false
  | .or _ _ => false
  | .and _ _ => false
  | .cmp _ _ => false
  | .ld _ _ => false
  | .st _ _ => false
  | .b _ => true
  | .beq _ => s.eFlag
  | .bz _ => s.zFlag

/-- The registers an instruction reads or writes without naming them (10_state.md R23): sr for ADD, SUB, OR, AND, CMP, BEQ
and BZ, pc for the branches. -/
def Instr.usesImplicitly (i : Instr) (q : Reg) : Bool :=
  match i with
  | .mov _ _ => false
  | .movi _ _ => false
  | .add _ _ => q == .sr
  | .sub _ _ => q == .sr
  | .or _ _ => q == .sr
  | .and _ _ => q == .sr
  | .cmp _ _ => q == .sr
  | .ld _ _ => false
  | .st _ _ => false
  | .b _ => q == .pc
  | .beq _ => q == .pc || q == .sr
  | .bz _ => q == .pc || q == .sr

end Sys2Proof

namespace Sys2Proof.Machine

open Sys2Proof

/-- The state of an answer changed by `f`; a fault or a refusal stays. -/
def mapNext (f : State → State) : Result → Result
  | .next t => .next (f t)
  | .fault r => .fault r
  | .refused r => .refused r

/-! ### The order of fatal conditions (60_exceptions.md R161, R162) -/

/-- The value of the register an index names, where one is named; used on indices already found valid. -/
def State.regAt (s : State) (i : Nat) : Word := ((Reg.ofIndex i).map s.reg).getD 0#16

/-- The first of some indices, in order, that is above 11 (R162, item 4). -/
def firstBadIndex : List Nat → Option Fault
  | [] => none
  | i :: is => if 11 < i then some (.registerIndexOutOfRange i) else firstBadIndex is

/-- The indices a word's execution checks, by opcode, in order (R162, item 4). -/
def checkedIndices (w : Word) : List Nat :=
  if opcodeOf w = 0#4 ∨ opcodeOf w = 2#4 then [(rand1Of w).toNat, (rand2Of w).toNat]
  else if opcodeOf w = 1#4 then [(funcOf w).toNat]
  else if opcodeOf w = 3#4 ∨ opcodeOf w = 4#4 then [(funcOf w).toNat, (imm8Of w).toNat]
  else []

/-- The one fatal condition a cycle reports, from the word and the registers alone: the first that applies in the order of
R162. The address of LD and ST is read after the pc increment. -/
def State.firstFatal (s : State) : Option Fault :=
  match s.fetchWord (s.reg .pc) with
  | none => some (.fetchOutOfRange (s.reg .pc))
  | some w =>
    if 6 ≤ (opcodeOf w).toNat then some (.invalidOpcode (opcodeOf w))
    else if opcodeOf w = 2#4 ∧ 5 ≤ (funcOf w).toNat then some (.invalidFunction (opcodeOf w) (funcOf w))
    else if opcodeOf w = 5#4 ∧ 3 ≤ (funcOf w).toNat then some (.invalidFunction (opcodeOf w) (funcOf w))
    else
      match firstBadIndex (checkedIndices w) with
      | some f => some f
      | none =>
        if (opcodeOf w = 3#4 ∨ opcodeOf w = 4#4) ∧
            s.sizing.dataMemSize ≤ (s.advancePc.regAt (imm8Of w).toNat).toNat then
          some (.dataAddressOutOfRange (s.advancePc.regAt (imm8Of w).toNat))
        else none

/-! ### Runs -/

/-- `k` steps, ending at the first answer that is no next state. -/
def runSteps : Nat → State → Result
  | 0, s => .next s
  | k + 1, s =>
    match step s with
    | .next t => runSteps k t
    | .fault f => .fault f
    | .refused r => .refused r

/-- The byte the most recent store of the first `k` cycles put at data address `a`, if any cycle stored there
(20_memory.md R64). -/
def mostRecentStore : Nat → State → Nat → Option Byte
  | 0, _, _ => none
  | k + 1, s, a =>
    match step s with
    | .next t =>
      match mostRecentStore k t a with
      | some v => some v
      | none =>
        match s.nextStore with
        | some (b, v) => if b = a then some v else none
        | none => none
    | _ => none

/-- A step that leaves the block running: the safe steps. -/
def SafeStep (s : State) : Prop := ∃ t, step s = .next t ∧ t.run = .running

/-- A harness observes a run as ended, not faulted, when pc is EXIT_PC at the start of a cycle (70_reset_and_hazards.md R184,
D18). The block neither knows nor acts on it (log 10). -/
def State.observedEnded (s : State) (exitPc : Option Word) : Bool :=
  decide (s.run = .running) && decide (exitPc = some (s.reg .pc))

end Sys2Proof.Machine
end

