-- ==== Sys2Proof/Certificates/Slice0/Obligations.lean ====
section
/-! DEFINITION. The statements for the provers: each says what the spec's rules say an instruction or the block does. -/

open Sys2Proof Sys2Proof.Machine

/-! ### Moves -/

/-- 40_mov.md on MOV: every word with opcode 0 is MOV of its two low fields, bits 11:8 ignored (decision D12); `mov $D $S` is that
instruction; it copies the source register to the destination and changes nothing else (so sr only when rand1 = 10, as a
full write); an index above 11 stops it, rand1 checked first, with nothing written. -/
def Obligations.MovCopiesOneRegister : Prop :=
  (∀ func x y : Nibble, decode (0#4 ++ func ++ x ++ y) = .instr (.mov x y)) ∧
  (∀ d q : Reg, assemble .mov [.reg d, .reg q] = some (.mov d.field q.field)) ∧
  (∀ (d q : Reg) (s : State), ∃ t, exec (.mov d.field q.field) s = .next t ∧ WritesOnly s t d (s.reg q)) ∧
  RegisterFormStops Instr.mov

/-- 40_mov.md on MOVI: every word with opcode 1 is MOVI; it writes the zero-extended immediate (the same number, so bits
15:8 become 0: the spec's own decision D4) and changes nothing else; an index above 11 stops it. -/
def Obligations.MoviWritesZeroExtendedImmediate : Prop :=
  (∀ (r : Nibble) (n : Byte), decode (1#4 ++ r ++ n) = .instr (.movi r n)) ∧
  (∀ (r : Reg) (n : Byte), assemble .movi [.reg r, .num n.toNat] = some (.movi r.field n)) ∧
  (∀ (r : Reg) (n : Byte) (s : State), ∃ (t : State) (v : Word),
    exec (.movi r.field n) s = .next t ∧ v.toNat = n.toNat ∧ WritesOnly s t r v) ∧
  (∀ (r : Nibble) (n : Byte) (s : State), 11 < r.toNat →
    ∃ t, exec (.movi r n) s = .next t ∧ StopsUnchanged s t (.registerIndexOutOfRange r.toNat))

/-! ### ALU and compare -/

/-- 41_alu.md on ADD: func 0; the sum of the two registers modulo 2^16 (the spec's own decision D5), then the Z update.
`AluEffect` says the write, the flag update and the frame; `AluForm` the encoding, the notation and the fatal conditions. -/
def Obligations.AddWritesSumModulo : Prop :=
  AluForm 0#4 .add Instr.add ∧ AluEffect Instr.add fun x y res => res.toNat = (x.toNat + y.toNat) % 65536

/-- 41_alu.md on SUB: func 1; rand1 minus rand2 modulo 2^16 (the spec's own decision D5), then the Z update. -/
def Obligations.SubWritesDifferenceModulo : Prop :=
  AluForm 1#4 .sub Instr.sub ∧
  AluEffect Instr.sub fun x y res => (res.toNat : Int) = ((x.toNat : Int) - (y.toNat : Int)) % 65536

/-- 41_alu.md R133, whole: func 2; the OR of the two registers bit by bit, then the Z update; E is unchanged, and the result
is 0 only when both operands are. -/
def Obligations.OrWritesBitwiseOr : Prop :=
  AluForm 2#4 .or Instr.or ∧
  AluEffect Instr.or fun x y res =>
    (∀ i, res.getLsbD i = (x.getLsbD i || y.getLsbD i)) ∧ (res = 0#16 ↔ x = 0#16 ∧ y = 0#16)

/-- 41_alu.md R134, whole: func 3; the AND of the two registers bit by bit, then the Z update. -/
def Obligations.AndWritesBitwiseAnd : Prop :=
  AluForm 3#4 .and Instr.and ∧
  AluEffect Instr.and fun x y res => ∀ i, res.getLsbD i = (x.getLsbD i && y.getLsbD i)

/-- 41_alu.md R135, whole: func 4; E becomes 1 if the two registers are equal and 0 if not; Z, sr bits 15:2, every other
register and every byte are unchanged; an index above 11 stops it. -/
def Obligations.CmpWritesOnlyEqualFlag : Prop :=
  AluForm 4#4 .cmp Instr.cmp ∧
  ∀ (p q : Reg) (s : State), ∃ t, exec (.cmp p.field q.field) s = .next t ∧
    t.eFlag = decide (s.reg p = s.reg q) ∧ (∀ i, i ≠ 1 → (t.reg .sr).getLsbD i = (s.reg .sr).getLsbD i) ∧
    (∀ r, r ≠ .sr → t.reg r = s.reg r) ∧ OnlyRegistersChange s t

/-! ### Load and store -/

/-- 42_load_store.md on LD: opcode 3; the full value of register `ai` is the address, read before the write; below
DATA_MEM_SIZE the destination becomes the zero-extended data byte (decisions D2, D3) and nothing else changes; at or above it
the block stops with the address; register indices are checked first, func before imm8. -/
def Obligations.LoadReadsOneDataByte : Prop :=
  (∀ (r : Nibble) (n : Byte), decode (3#4 ++ r ++ n) = .instr (.ld r n)) ∧
  (∀ (r : Reg) (n : Byte), assemble .ld [.reg r, .num n.toNat] = some (.ld r.field n)) ∧
  (∀ (d a : Reg) (s : State), (s.reg a).toNat < s.sizing.dataMemSize →
    ∃ (t : State) (v : Word), exec (.ld d.field a.addrField) s = .next t ∧
      v.toNat = (s.data.read (s.reg a).toNat).toNat ∧ WritesOnly s t d v) ∧
  (∀ (d a : Reg) (s : State), s.sizing.dataMemSize ≤ (s.reg a).toNat →
    ∃ t, exec (.ld d.field a.addrField) s = .next t ∧ StopsUnchanged s t (.dataAddressOutOfRange (s.reg a))) ∧
  (∀ (r : Nibble) (n : Byte) (s : State), 11 < r.toNat →
    ∃ t, exec (.ld r n) s = .next t ∧ StopsUnchanged s t (.registerIndexOutOfRange r.toNat)) ∧
  (∀ (r : Nibble) (n : Byte) (s : State), r.toNat ≤ 11 → 11 < n.toNat →
    ∃ t, exec (.ld r n) s = .next t ∧ StopsUnchanged s t (.registerIndexOutOfRange n.toNat))

/-- 42_load_store.md on ST: opcode 4; below DATA_MEM_SIZE the byte at the address in register `ai` becomes bits 7:0 of
register `r` (decisions D2, D3), every other data byte, all of program memory and every register are unchanged; at or above
it the block stops with the address; register indices are checked first, func before imm8. -/
def Obligations.StoreWritesOneDataByte : Prop :=
  (∀ (r : Nibble) (n : Byte), decode (4#4 ++ r ++ n) = .instr (.st r n)) ∧
  (∀ (r : Reg) (n : Byte), assemble .st [.reg r, .num n.toNat] = some (.st r.field n)) ∧
  (∀ (v a : Reg) (s : State), (s.reg a).toNat < s.sizing.dataMemSize →
    ∃ t, exec (.st v.field a.addrField) s = .next t ∧
      (t.data.read (s.reg a).toNat).toNat = (s.reg v).toNat % 256 ∧
      (∀ b, b ≠ (s.reg a).toNat → t.data.read b = s.data.read b) ∧
      (∀ b, t.prog.read b = s.prog.read b) ∧ (∀ p, t.reg p = s.reg p) ∧ t.run = s.run ∧ t.sizing = s.sizing) ∧
  (∀ (v a : Reg) (s : State), s.sizing.dataMemSize ≤ (s.reg a).toNat →
    ∃ t, exec (.st v.field a.addrField) s = .next t ∧ StopsUnchanged s t (.dataAddressOutOfRange (s.reg a))) ∧
  (∀ (r : Nibble) (n : Byte) (s : State), 11 < r.toNat →
    ∃ t, exec (.st r n) s = .next t ∧ StopsUnchanged s t (.registerIndexOutOfRange r.toNat)) ∧
  (∀ (r : Nibble) (n : Byte) (s : State), r.toNat ≤ 11 → 11 < n.toNat →
    ∃ t, exec (.st r n) s = .next t ∧ StopsUnchanged s t (.registerIndexOutOfRange n.toNat))

/-- A store and then a load through the same address register gives the stored byte, whatever the registers are
(20_memory.md R58, R64); the store may be of the address itself. -/
def Obligations.StoreThenLoadGivesStoredByte : Prop :=
  ∀ (v a d : Reg) (s t : State), (s.reg a).toNat < s.sizing.dataMemSize →
    exec (.st v.field a.addrField) s = .next t →
    ∃ u, exec (.ld d.field a.addrField) t = .next u ∧ (u.reg d).toNat = (s.reg v).toNat % 256

/-! ### Branches -/

/-- 43_branch.md on B: opcode 5, func 0; pc becomes the zero-extended immediate, absolute (decision D22), and nothing else
changes; a target outside program memory is reported by the next fetch. -/
def Obligations.BranchAlwaysJumps : Prop :=
  (∀ n : Byte, decode (5#4 ++ 0#4 ++ n) = .instr (.b n)) ∧
  (∀ n : Byte, assemble .b [.num n.toNat] = some (.b n)) ∧
  (∀ (n : Byte) (s : State), TakesBranch (.b n) n s)

/-- 43_branch.md on BEQ: opcode 5, func 1; taken exactly when sr bit 1 is 1, whatever the other bits of sr; not taken, it
changes nothing. -/
def Obligations.BeqJumpsIfEqualFlag : Prop :=
  (∀ n : Byte, decode (5#4 ++ 1#4 ++ n) = .instr (.beq n)) ∧
  (∀ n : Byte, assemble .beq [.num n.toNat] = some (.beq n)) ∧
  (∀ (n : Byte) (s : State), (s.reg .sr).getLsbD 1 = true → TakesBranch (.beq n) n s) ∧
  (∀ (n : Byte) (s : State), (s.reg .sr).getLsbD 1 = false → FallsThrough (.beq n) s)

/-- 43_branch.md on BZ: opcode 5, func 2; taken exactly when sr bit 0 is 1, whatever the other bits of sr; not taken, it
changes nothing. -/
def Obligations.BzJumpsIfZeroFlag : Prop :=
  (∀ n : Byte, decode (5#4 ++ 2#4 ++ n) = .instr (.bz n)) ∧
  (∀ n : Byte, assemble .bz [.num n.toNat] = some (.bz n)) ∧
  (∀ (n : Byte) (s : State), (s.reg .sr).getLsbD 0 = true → TakesBranch (.bz n) n s) ∧
  (∀ (n : Byte) (s : State), (s.reg .sr).getLsbD 0 = false → FallsThrough (.bz n) s)

/-- 43_branch.md, introduction, and 90_conflicts.md C4: under the reference sizing every taken branch ends the run at the
next fetch, since no target 0..255 is in program memory; the stop reports the target. -/
def Obligations.TakenBranchEndsRunUnderReferenceSizing : Prop :=
  ∀ (i : Instr) (s t : State), s.sizing = Config.reference → s.run = .running → i.takenIn s = true →
    exec i s = .next t →
    ∃ u, step t = .next u ∧ (t.reg .pc).toNat < 256 ∧ StopsUnchanged t u (.fetchOutOfRange (t.reg .pc))

/-! ### Whole-machine rules over every instruction -/

/-- 10_state.md R23, the writes: a register that an instruction changes is its destination, sr for ADD, SUB, OR, AND and CMP,
or pc for a taken branch. -/
def Obligations.RegistersChangeOnlyAsTabled : Prop :=
  ∀ (i : Instr) (s t : State) (p : Reg), exec i s = .next t → t.reg p ≠ s.reg p →
    i.destIndex = some p.index ∨ (p = .sr ∧ (i.setsZero = true ∨ i.isCmp = true)) ∨ (p = .pc ∧ i.takenIn s = true)

/-- 10_state.md R25, whole, for lr, and the same for every other register: a register that an instruction neither names nor uses implicitly (lr and sp are
never used implicitly) has no influence on it and is carried through it: setting it before or after is the same. -/
def Obligations.UnnamedRegisterIsInert : Prop :=
  ∀ (i : Instr) (s : State) (q : Reg) (v : Word), q.index ∉ i.namedIndices → i.usesImplicitly q = false →
    exec i (s.setReg q v) = mapNext (fun t => t.setReg q v) (exec i s)

/-- 10_state.md R31: once set, Z is cleared only by an instruction whose destination is sr, and only with a result whose bit
0 is 0; and an instruction that does not write sr in full sets Z only as ADD, SUB, OR or AND with a zero result in its
destination. -/
def Obligations.ZeroFlagIsSticky : Prop :=
  ∀ (i : Instr) (s t : State), exec i s = .next t →
    (s.zFlag = true → t.zFlag = false → i.destIndex = some Reg.sr.index) ∧
    (i.destIndex ≠ some Reg.sr.index → s.zFlag = false → t.zFlag = true →
      i.setsZero = true ∧ ∃ d : Reg, i.destIndex = some d.index ∧ t.reg d = 0#16)

/-- 10_state.md R32: E changes only by CMP or by a full write of sr. -/
def Obligations.EqualFlagChangesOnlyByCmpOrFullWrite : Prop :=
  ∀ (i : Instr) (s t : State), exec i s = .next t → t.eFlag ≠ s.eFlag →
    i.isCmp = true ∨ i.destIndex = some Reg.sr.index

/-- 10_state.md on the pc (decisions D1, D23): after a cycle that executes an instruction, pc is the fetch address plus 2, modulo
2^16, unless the instruction's destination is index 8 or it is a taken branch. -/
def Obligations.PcAdvancesByTwoElsewhere : Prop :=
  ∀ (s t : State) (i : Instr), step s = .next t → s.nextInstr = some i →
    i.destIndex ≠ some Reg.pc.index → i.takenIn s.advancePc = false →
    (t.reg .pc).toNat = ((s.reg .pc).toNat + 2) % 65536

/-- 20_memory.md R55: no step changes program memory, which stays as loaded for the whole run. R67, an inference the spec marks
as its own: so no store is ever seen by a later fetch. The model's choice (log 2): the sizing, a field of State, never changes
either. -/
def Obligations.ProgramMemoryNeverChanges : Prop :=
  ∀ (k : Nat) (s t : State), runSteps k s = .next t →
    t.prog = s.prog ∧ t.sizing = s.sizing ∧ ∀ a, t.fetchWord a = s.fetchWord a

/-- 10_state.md R36, 20_memory.md R50: a step changes data memory only at the byte `nextStore` computes: at the address in the
address register that an ST names, unmasked and below DATA_MEM_SIZE (decision D2), to the low byte of the data-source
register that it names (decision D3). -/
def Obligations.DataMemoryChangesOnlyByStore : Prop :=
  ∀ (s t : State), step s = .next t →
    ∀ a, t.data.read a =
      match s.nextStore with
      | some (b, v) => if a = b then v else s.data.read a
      | none => s.data.read a

/-- 20_memory.md on sequential consistency (zero extension is decision D3): after any number of cycles from any launch, an LD from an in-bounds address gives the byte of the most
recent earlier ST to that address, or DATA_INIT's byte if none stored there. -/
def Obligations.LoadGivesMostRecentStore : Prop :=
  ∀ (z : Config.Sizing) (image : List Byte) (sp0 : Word) (progFill dataInit : Nat → Byte) (k : Nat) (u : State) (d a : Reg),
    runSteps k (State.launchState z image sp0 progFill dataInit) = .next u →
    u.nextInstr = some (.ld d.field a.addrField) →
    (u.advancePc.reg a).toNat < z.dataMemSize →
    ∃ v, step u = .next v ∧
      (v.reg d).toNat =
        ((mostRecentStore k (State.launchState z image sp0 progFill dataInit) (u.advancePc.reg a).toNat).getD
          (dataInit (u.advancePc.reg a).toNat)).toNat

/-! ### Fetch, decode and the cycle -/

/-- 30_encoding.md R96, R97, R99: when the word at pc decodes to an instruction, the step is that instruction's meaning on
the state with pc advanced by 2 and nothing else changed. -/
def Obligations.StepRunsDecodedInstruction : Prop :=
  ∀ (s : State) (w : Word) (i : Instr), s.run = .running → s.fetchWord (s.reg .pc) = some w → decode w = .instr i →
    step s = exec i s.advancePc ∧
    WritesOnly s s.advancePc .pc (BitVec.ofNat 16 (((s.reg .pc).toNat + 2) % 65536))

/-- 20_memory.md on fetch: a fetch that is in bounds, the test being of the offset of its second byte (decision D11; log 15 for
a sizing that passes the address space), succeeds at an odd address as at an even one (decision D11), and the word is
`b0 + 256 * b1` of the bytes at the offset and after it (R52). -/
def Obligations.FetchIsLittleEndian : Prop :=
  ∀ (s : State) (a : Word), s.sizing.loadBase.toNat ≤ a.toNat →
    (a.toNat : Int) - s.sizing.loadBase.toNat + 1 ≤ (s.sizing.progMemSize : Int) - 1 →
    ∃ w, s.fetchWord a = some w ∧
      w.toNat = (s.prog.read (a.toNat - s.sizing.loadBase.toNat)).toNat +
        256 * (s.prog.read (a.toNat - s.sizing.loadBase.toNat + 1)).toNat

/-- 20_memory.md on fetch bounds (decision D11; log 15 for a sizing that passes the address space): a running block whose pc is below LOAD_BASE, or whose second byte lies
outside program memory, stops with the fetch address; pc is not incremented and nothing else changes. -/
def Obligations.FetchOutOfRangeStops : Prop :=
  ∀ s : State, s.run = .running →
    ((s.reg .pc).toNat < s.sizing.loadBase.toNat ∨
      (s.sizing.progMemSize : Int) - 1 < ((s.reg .pc).toNat : Int) - s.sizing.loadBase.toNat + 1) →
    ∃ t, step s = .next t ∧ StopsUnchanged s t (.fetchOutOfRange (s.reg .pc))

/-- 30_encoding.md R90, whole: a word with opcode 6..15 is illegal whatever its other bits, and the cycle that fetches it
stops with InvalidOpcode and the opcode, only pc having moved. -/
def Obligations.IllegalOpcodeStops : Prop :=
  ∀ (op f x y : Nibble), 6 ≤ op.toNat →
    decode (op ++ f ++ x ++ y) = .invalidOpcode op ∧
    ∀ s : State, s.run = .running → s.fetchWord (s.reg .pc) = some (op ++ f ++ x ++ y) →
      ∃ t, step s = .next t ∧ StopsUnchanged s.advancePc t (.invalidOpcode op)

/-- 30_encoding.md R91 and R92, whole: an ALU function 5..15 or a BRANCH function 3..15 is illegal whatever the low byte,
and the cycle that fetches it stops with InvalidFunction, the opcode and the function, only pc having moved. -/
def Obligations.IllegalFunctionStops : Prop :=
  ∀ (op f x y : Nibble), (op = 2#4 ∧ 5 ≤ f.toNat) ∨ (op = 5#4 ∧ 3 ≤ f.toNat) →
    decode (op ++ f ++ x ++ y) = .invalidFunction op f ∧
    ∀ s : State, s.run = .running → s.fetchWord (s.reg .pc) = some (op ++ f ++ x ++ y) →
      ∃ t, step s = .next t ∧ StopsUnchanged s.advancePc t (.invalidFunction op f)

/-- 30_encoding.md on the encoding patterns (an inference the spec marks as its own): at most one row of the opcode table
matches a word, and a word decodes to an instruction exactly when a row matches it, that instruction's. -/
def Obligations.OpcodeTableDecidesDecoding : Prop :=
  ∀ w : Word,
    (∀ r ∈ opcodeTable, ∀ q ∈ opcodeTable, r.matches w = true → q.matches w = true → r = q) ∧
    (∀ i, decode w = .instr i → ∃ r ∈ opcodeTable, r.matches w = true ∧ r.mnemonic = i.mnemonic) ∧
    (∀ r ∈ opcodeTable, r.matches w = true → ∃ i, decode w = .instr i ∧ i.mnemonic = r.mnemonic)

/-- 30_encoding.md R100, whole: for every instruction and every operand value, decoding the word the assembler encodes
gives back the instruction; the word's opcode and function are those of R102, MOV's function being 0. -/
def Obligations.DecodeInvertsEncode : Prop :=
  ∀ i : Instr, decode (encode i) = .instr i ∧ opcodeOf (encode i) = i.opcode ∧ funcOf (encode i) = i.func

/-- 30_encoding.md on MOV's ignored bits (decision D12): encoding a decoded word gives the word back, but for bits 11:8 of
MOV, which are ignored: every other bit of every legal word is kept. -/
def Obligations.EncodeInvertsDecode : Prop :=
  ∀ (w : Word) (i : Instr), decode w = .instr i →
    encode i = if opcodeOf w = 0#4 then w &&& 0xF0FF#16 else w

/-- Words written out from the encodings of 30_encoding.md R111 and the worked examples S1 to S3 and V38 to V53 of
95_test_vectors.md decode to the instructions they stand for. -/
def Obligations.WrittenWordsDecode : Prop :=
  decode 0x0005#16 = .instr (.mov 0 5) ∧ decode 0x1207#16 = .instr (.movi 2 7) ∧
  decode 0x2041#16 = .instr (.add 4 1) ∧ decode 0x2177#16 = .instr (.sub 7 7) ∧
  decode 0x2401#16 = .instr (.cmp 0 1) ∧ decode 0x3401#16 = .instr (.ld 4 1) ∧
  decode 0x4201#16 = .instr (.st 2 1) ∧ decode 0x5000#16 = .instr (.b 0) ∧
  decode 0x5114#16 = .instr (.beq 20) ∧ decode 0x5232#16 = .instr (.bz 50)

/-- The model's choice (log 6; log 7 for a pc no fetch is in bounds at, which the premise leaves out): `withFetchWord` stands for
the load of one word where the next cycle fetches. That word is then the one it fetches, and no other byte of program memory,
no data byte and no register changes. -/
def Obligations.PlacedWordIsFetched : Prop :=
  ∀ (s : State) (w : Word), s.fetchInBounds (s.reg .pc) = true →
    (s.withFetchWord 16 w.toNat).fetchWord (s.reg .pc) = some w ∧
    (∀ a, a ≠ s.progOffset (s.reg .pc) → a ≠ s.progOffset (s.reg .pc) + 1 →
      (s.withFetchWord 16 w.toNat).prog.read a = s.prog.read a) ∧
    (∀ p, (s.withFetchWord 16 w.toNat).reg p = s.reg p) ∧
    (∀ a, (s.withFetchWord 16 w.toNat).data.read a = s.data.read a) ∧
    (s.withFetchWord 16 w.toNat).run = s.run ∧ (s.withFetchWord 16 w.toNat).sizing = s.sizing

/-! ### The fatal stop -/

/-- 60_exceptions.md on the five kinds and their order (decisions D13, D14): a running block always answers a next
state, and its run state afterwards is the first fatal condition of the spec's order, computed from the fetched word and the
registers alone, or still running when there is none. -/
def Obligations.CycleReportsFirstFatalCondition : Prop :=
  ∀ s : State, s.run = .running →
    ∃ t, step s = .next t ∧
      t.run = (match s.firstFatal with
        | some f => .fatal f
        | none => .running)

/-- 10_state.md R24: an instruction executed by a running block stops with RegisterIndexOutOfRange, whatever the index it
reports, exactly when it names an index above 11; and the index it reports is above 11 and one it names. -/
def Obligations.IndexStopsExactlyWhenIllFormed : Prop :=
  ∀ (i : Instr) (s t : State), s.run = .running → exec i s = .next t →
    (i.wellFormed = false ↔ ∃ n, t.run = .fatal (.registerIndexOutOfRange n)) ∧
    (∀ n, t.run = .fatal (.registerIndexOutOfRange n) → 11 < n ∧ n ∈ i.namedIndices)

/-- 60_exceptions.md on what a fatal cycle leaves (decision D15): no register but pc, no flag and no byte is written;
pc keeps the increment, but for a fetch fault, which leaves it. -/
def Obligations.FatalCycleWritesNothing : Prop :=
  ∀ (s t : State) (f : Fault), s.run = .running → step s = .next t → t.run = .fatal f →
    (∀ p, p ≠ .pc → t.reg p = s.reg p) ∧ (∀ a, t.data.read a = s.data.read a) ∧
    (∀ a, t.prog.read a = s.prog.read a) ∧ t.sizing = s.sizing ∧
    t.reg .pc = (match f with
      | .fetchOutOfRange _ => s.reg .pc
      | _ => s.reg .pc + 2#16)

/-- 60_exceptions.md on the fatal stop, in the form the model chose (log 1): a stopped block answers its fault at every step and
never runs again. 70_reset_and_hazards.md on RESET (decision D24; log 13): from every state, stopped or running, reset with an
image that fits has the whole effect of startup, on every register, both memories and the run state, and one with a longer
image is refused (decision D19). -/
def Obligations.FatalStopIsTerminal : Prop :=
  (∀ (s : State) (f : Fault), s.run = .fatal f → ∀ k, runSteps (k + 1) s = .fault f) ∧
  (∀ (s : State) (image : List Byte) (sp0 : Word) (progFill dataInit : Nat → Byte),
    image.length ≤ s.sizing.progMemSize →
    ∃ t, s.resetInput image sp0 progFill dataInit = .next t ∧ StartupValues s.sizing image sp0 progFill dataInit t) ∧
  (∀ (s : State) (image : List Byte) (sp0 : Word) (progFill dataInit : Nat → Byte),
    s.sizing.progMemSize < image.length →
    s.resetInput image sp0 progFill dataInit = .refused (.imageTooLong image.length))

/-- In the form the model chose (log 1): a fault is answered only by a block that had already stopped, and no step refuses,
since every instruction has its meaning (30_encoding.md; 60_exceptions.md). -/
def Obligations.RunningBlockNeverGetsStuck : Prop :=
  ∀ (s : State) (i : Instr),
    (∃ t, exec i s = .next t) ∧ (∀ r, step s ≠ .refused r) ∧ (∀ f, step s = .fault f ↔ s.run = .fatal f)

/-! ### Reset, launch and the invariant -/

/-- 10_state.md R38, whole, for every sizing, image that fits, SP_RESET, PROG_FILL and DATA_INIT: the value of every piece of
state at startup. -/
def Obligations.LaunchGivesResetValues : Prop :=
  ∀ (z : Config.Sizing) (image : List Byte) (sp0 : Word) (progFill dataInit : Nat → Byte),
    image.length ≤ z.progMemSize →
    ∃ t, State.launch z image sp0 progFill dataInit = .next t ∧ StartupValues z image sp0 progFill dataInit t

/-- 70_reset_and_hazards.md on the image's length (decision D19): an image longer than program memory is refused before the
run. -/
def Obligations.LongImageIsRefused : Prop :=
  ∀ (z : Config.Sizing) (image : List Byte) (sp0 : Word) (progFill dataInit : Nat → Byte),
    z.progMemSize < image.length → State.launch z image sp0 progFill dataInit = .refused (.imageTooLong image.length)

/-- The model's choice (logs 3, 4, 5): `State.reset` is the launch of the empty image under the reference sizing with sp,
PROG_FILL and DATA_INIT at the values those entries name. -/
def Obligations.ResetIsEmptyReferenceLaunch : Prop :=
  State.launch Config.reference [] Config.spReset (fun _ => 0x00#8) (fun _ => 0x00#8) = .next State.reset

/-- 30_encoding.md R106, 70_reset_and_hazards.md (LOAD) and 20_memory.md R52 together: after loading the image of a list of
instructions, the fetch at LOAD_BASE + 2k gives a word that decodes to the k-th of them, whatever fills the rest. -/
def Obligations.LoadedImageIsFetched : Prop :=
  ∀ (z : Config.Sizing) (is : List Instr) (sp0 : Word) (progFill dataInit : Nat → Byte) (k : Nat) (i : Instr),
    (imageOf is).length ≤ z.progMemSize → z.loadBase.toNat + z.progMemSize ≤ 65536 → is[k]? = some i →
    ∃ w, (State.launchState z (imageOf is) sp0 progFill dataInit).fetchWord
        (BitVec.ofNat 16 (z.loadBase.toNat + 2 * k)) = some w ∧ decode w = .instr i

/-- The model's representation (logs 4, 5 and 8): every step keeps both memories in canonical form, addresses strictly rising and no
byte listed that an unlisted address reads as; and lists no byte that does not exist, the sizes being those of 10_state.md
R35 and R36. -/
def Obligations.StepKeepsMemoryInvariant : Prop :=
  ∀ (s t : State), s.Inv → step s = .next t → t.Inv

/-- The state after reset meets that invariant, the model's representation (logs 4, 5 and 8) within the sizes of 10_state.md R35
and R36; and so does every launch, whatever image and contents it draws. -/
def Obligations.LaunchMeetsMemoryInvariant : Prop :=
  State.reset.Inv ∧
  ∀ (z : Config.Sizing) (image : List Byte) (sp0 : Word) (progFill dataInit : Nat → Byte) (t : State),
    State.launch z image sp0 progFill dataInit = .next t → t.Inv

/-- The model's representation (log 4): memories in canonical form that read the same are equal data, so two states can be
compared. -/
def Obligations.CanonicalMemoryIsUnique : Prop :=
  ∀ m n : Memory, m.wf = true → n.wf = true → (∀ a, m.read a = n.read a) → m = n

/-- 70_reset_and_hazards.md on running past the end of the image (an inference the spec marks as its own): where every
program byte from pc on is 0, the block executes `mov $a0 $a0` to the end of program memory, changing pc alone, and stops with
FetchOutOfRange at LOAD_BASE + PROG_MEM_SIZE from an offset of the size's parity, one byte earlier from the other. -/
def Obligations.ZeroFillRunsOffTheEnd : Prop :=
  ∀ (s : State) (off : Nat), s.run = .running → (s.reg .pc).toNat = s.sizing.loadBase.toNat + off →
    off ≤ s.sizing.progMemSize → s.sizing.loadBase.toNat + s.sizing.progMemSize < 65536 →
    (∀ a, off ≤ a → a < s.sizing.progMemSize → s.prog.read a = 0x00#8) →
    ∃ t u, runSteps ((s.sizing.progMemSize - off) / 2) s = .next t ∧
      (t.reg .pc).toNat = s.sizing.loadBase.toNat + s.sizing.progMemSize - (s.sizing.progMemSize - off) % 2 ∧
      (∀ p, p ≠ .pc → t.reg p = s.reg p) ∧ OnlyRegistersChange s t ∧
      step t = .next u ∧ StopsUnchanged t u (.fetchOutOfRange (t.reg .pc))

/-! ### Names and notation -/

/-- 10_state.md R20, R21: the twelve names stand for the indices 0 to 11 one to one, `t` names being 4 above `a` names, and a
string that is no register's name names none. -/
def Obligations.RegisterNamesAreOneToOne : Prop :=
  (∀ r : Reg, Reg.ofName r.name = some r ∧ Reg.ofIndex r.index = some r ∧ r.index ≤ 11) ∧
  (∀ i, i ≤ 11 → ∃ r : Reg, r.index = i) ∧
  (∀ (n : String) (r : Reg), Reg.ofName n = some r → n = r.name) ∧
  Reg.all.map Reg.name = ["a0", "a1", "a2", "a3", "t0", "t1", "t2", "t3", "pc", "lr", "sr", "sp"] ∧
  Reg.all.map Reg.index = [0, 1, 2, 3, 4, 5, 6, 7, 8, 9, 10, 11]

/-- 30_encoding.md on disassembly (decision D26): the text form of an instruction assembles to that instruction, and where a
register field of 12..15 has no name, the assembler does not accept it. -/
def Obligations.DisassemblyAssemblesBack : Prop :=
  ∀ i : Instr, assembleTokens (disassemble i) = if hasText i then some i else none
end

