-- ==== Sys2Proof/Laws/Decode.lean ====
section
/-! SUPPORT. The fields of the two word layouts (30_encoding.md R82, R83) and the bytes of a word (20_memory.md R52). -/

namespace Sys2Proof

/-- Concatenation as a number (00_scope.md R8). -/
theorem toNat_append_eq {n m : Nat} (x : BitVec n) (y : BitVec m) : (x ++ y).toNat = x.toNat * 2 ^ m + y.toNat := by
  rw [BitVec.toNat_append, ← Nat.shiftLeft_add_eq_or_of_lt y.isLt, Nat.shiftLeft_eq]

/-- The register form as a number. -/
theorem toNat_registerForm (o f a b : Nibble) :
    (registerForm o f a b).toNat = 4096 * o.toNat + 256 * f.toNat + 16 * a.toNat + b.toNat := by
  simp only [registerForm, toNat_append_eq]; omega

/-- The immediate form as a number. -/
theorem toNat_immediateForm (o f : Nibble) (m : Byte) :
    (immediateForm o f m).toNat = 4096 * o.toNat + 256 * f.toNat + m.toNat := by
  simp only [immediateForm, toNat_append_eq]; omega

/-- The number a word's bytes give: `b0 + 256 * b1` (20_memory.md R52). -/
theorem toNat_wordOfBytes (b0 b1 : Byte) : (wordOfBytes b0 b1).toNat = b0.toNat + 256 * b1.toNat := by
  simp only [wordOfBytes, toNat_append_eq]; omega

theorem toNat_opcodeOf (w : Word) : (opcodeOf w).toNat = w.toNat / 4096 := by
  have := w.isLt
  simp only [opcodeOf, BitVec.extractLsb'_toNat, Nat.shiftRight_eq_div_pow]; omega

theorem toNat_funcOf (w : Word) : (funcOf w).toNat = w.toNat / 256 % 16 := by
  simp only [funcOf, BitVec.extractLsb'_toNat, Nat.shiftRight_eq_div_pow]

theorem toNat_rand1Of (w : Word) : (rand1Of w).toNat = w.toNat / 16 % 16 := by
  simp only [rand1Of, BitVec.extractLsb'_toNat, Nat.shiftRight_eq_div_pow]

theorem toNat_rand2Of (w : Word) : (rand2Of w).toNat = w.toNat % 16 := by
  simp [rand2Of, BitVec.extractLsb'_toNat]

theorem toNat_imm8Of (w : Word) : (imm8Of w).toNat = w.toNat % 256 := by
  simp [imm8Of, BitVec.extractLsb'_toNat]

theorem toNat_lowByte (w : Word) : (lowByte w).toNat = w.toNat % 256 := by
  simp [lowByte, BitVec.extractLsb'_toNat]

theorem toNat_highByte (w : Word) : (highByte w).toNat = w.toNat / 256 := by
  have := w.isLt
  simp only [highByte, BitVec.extractLsb'_toNat, Nat.shiftRight_eq_div_pow]; omega

@[simp] theorem opcodeOf_registerForm (o f a b : Nibble) : opcodeOf (registerForm o f a b) = o := by
  apply BitVec.eq_of_toNat_eq; have := f.isLt; have := a.isLt; have := b.isLt
  rw [toNat_opcodeOf, toNat_registerForm]; omega
@[simp] theorem funcOf_registerForm (o f a b : Nibble) : funcOf (registerForm o f a b) = f := by
  apply BitVec.eq_of_toNat_eq; have := f.isLt; have := a.isLt; have := b.isLt
  rw [toNat_funcOf, toNat_registerForm]; omega
@[simp] theorem rand1Of_registerForm (o f a b : Nibble) : rand1Of (registerForm o f a b) = a := by
  apply BitVec.eq_of_toNat_eq; have := a.isLt; have := b.isLt
  rw [toNat_rand1Of, toNat_registerForm]; omega
@[simp] theorem rand2Of_registerForm (o f a b : Nibble) : rand2Of (registerForm o f a b) = b := by
  apply BitVec.eq_of_toNat_eq; have := b.isLt
  rw [toNat_rand2Of, toNat_registerForm]; omega
@[simp] theorem opcodeOf_immediateForm (o f : Nibble) (m : Byte) : opcodeOf (immediateForm o f m) = o := by
  apply BitVec.eq_of_toNat_eq; have := f.isLt; have := m.isLt
  rw [toNat_opcodeOf, toNat_immediateForm]; omega
@[simp] theorem funcOf_immediateForm (o f : Nibble) (m : Byte) : funcOf (immediateForm o f m) = f := by
  apply BitVec.eq_of_toNat_eq; have := f.isLt; have := m.isLt
  rw [toNat_funcOf, toNat_immediateForm]; omega
@[simp] theorem imm8Of_immediateForm (o f : Nibble) (m : Byte) : imm8Of (immediateForm o f m) = m := by
  apply BitVec.eq_of_toNat_eq; have := m.isLt
  rw [toNat_imm8Of, toNat_immediateForm]; omega

/-- A word is the register form of its own fields (30_encoding.md R82). -/
theorem registerForm_fields (w : Word) : registerForm (opcodeOf w) (funcOf w) (rand1Of w) (rand2Of w) = w := by
  apply BitVec.eq_of_toNat_eq
  rw [toNat_registerForm, toNat_opcodeOf, toNat_funcOf, toNat_rand1Of, toNat_rand2Of]; omega

/-- A word is the immediate form of its own fields (30_encoding.md R83). -/
theorem immediateForm_fields (w : Word) : immediateForm (opcodeOf w) (funcOf w) (imm8Of w) = w := by
  apply BitVec.eq_of_toNat_eq
  rw [toNat_immediateForm, toNat_opcodeOf, toNat_funcOf, toNat_imm8Of]; omega

/-- A word read back from its two bytes is itself (20_memory.md R52). -/
@[simp] theorem wordOfBytes_lowByte_highByte (w : Word) : wordOfBytes (lowByte w) (highByte w) = w := by
  apply BitVec.eq_of_toNat_eq
  rw [toNat_wordOfBytes, toNat_lowByte, toNat_highByte]; omega

/-- The two bytes of a word made of two bytes (20_memory.md R52). -/
@[simp] theorem lowByte_wordOfBytes (b0 b1 : Byte) : lowByte (wordOfBytes b0 b1) = b0 := by
  apply BitVec.eq_of_toNat_eq; have := b0.isLt
  rw [toNat_lowByte, toNat_wordOfBytes]; omega
@[simp] theorem highByte_wordOfBytes (b0 b1 : Byte) : highByte (wordOfBytes b0 b1) = b1 := by
  apply BitVec.eq_of_toNat_eq; have := b0.isLt
  rw [toNat_highByte, toNat_wordOfBytes]; omega

end Sys2Proof
end

