-- ==== Sys2Proof/Laws/Memory.lean ====
section
/-!
SUPPORT. Memory: a read after a write, and that every memory operation keeps the canonical form.
-/

namespace Sys2Proof.Machine

open Sys2Proof

theorem Memory.read_erase (m : Memory) (a b : Nat) :
    (m.erase a).read b = if b = a then Config.unlistedByte else m.read b := by
  induction m with
  | nil => simp [Memory.erase, Memory.read]
  | cons c m ih =>
    obtain ⟨k, w⟩ := c
    simp only [Memory.erase] at ih ⊢
    by_cases hk : k = a
    · subst hk
      simp only [ne_eq, not_true_eq_false, decide_false, Bool.false_eq_true, not_false_eq_true, List.filter_cons_of_neg, ih,
        Memory.read]
      by_cases hb : b = k <;> simp [hb]
    · simp only [ne_eq, hk, not_false_eq_true, decide_true, List.filter_cons_of_pos, Memory.read, ih]
      by_cases hbk : b = k
      · subst hbk; simp [hk]
      · simp [hbk]

theorem Memory.read_insert (m : Memory) (a b : Nat) (v : Byte) (h : m.read a = Config.unlistedByte ∨ b ≠ a)
    (hm : ∀ c ∈ m, c.1 ≠ a) : (m.insert a v).read b = if b = a then v else m.read b := by
  induction m with
  | nil => simp [Memory.insert, Memory.read]
  | cons c m ih =>
    obtain ⟨k, w⟩ := c
    have hk : k ≠ a := hm (k, w) (by simp)
    have ih' := ih (by
      rcases h with h | h
      · left; simpa [Memory.read, Ne.symm hk] using h
      · exact .inr h) (fun c hc => hm c (by simp [hc]))
    simp only [Memory.insert]
    split
    · simp [Memory.read]
    · simp only [Memory.read, ih']
      by_cases hbk : b = k
      · subst hbk; simp [hk]
      · simp [hbk]

theorem Memory.fst_ne_of_mem_erase {m : Memory} {a : Nat} : ∀ c ∈ m.erase a, c.1 ≠ a := by
  intro c hc
  simpa using (List.mem_filter.mp hc).2

/-- A read after a write: the written byte at its address, every other byte as before. -/
@[simp] theorem Memory.read_write (m : Memory) (a b : Nat) (v : Byte) :
    (m.write a v).read b = if b = a then v else m.read b := by
  unfold Memory.write
  split
  · next h => rw [Memory.read_erase, h]
  · rw [Memory.read_insert _ _ _ _ (.inl (by simp [Memory.read_erase])) Memory.fst_ne_of_mem_erase, Memory.read_erase]
    by_cases hb : b = a <;> simp [hb]

theorem Memory.wfFrom_mono {m : Memory} {lo lo' : Nat} (h : Memory.wfFrom lo m = true) (hl : lo' ≤ lo) :
    Memory.wfFrom lo' m = true := by
  cases m with
  | nil => rfl
  | cons c m =>
    obtain ⟨k, w⟩ := c
    simp only [Memory.wfFrom, Bool.and_eq_true, decide_eq_true_eq] at h ⊢
    exact ⟨⟨by omega, h.1.2⟩, h.2⟩

theorem Memory.wfFrom_erase {m : Memory} {lo : Nat} (a : Nat) (h : Memory.wfFrom lo m = true) :
    Memory.wfFrom lo (m.erase a) = true := by
  induction m generalizing lo with
  | nil => rfl
  | cons c m ih =>
    obtain ⟨k, w⟩ := c
    simp only [Memory.wfFrom, Bool.and_eq_true, decide_eq_true_eq] at h
    have ih' := ih h.2
    simp only [Memory.erase] at ih' ⊢
    by_cases hk : k = a
    · simp only [ne_eq, hk, not_true_eq_false, decide_false, Bool.false_eq_true, not_false_eq_true,
        List.filter_cons_of_neg]
      rw [hk] at h ih'
      exact Memory.wfFrom_mono ih' (by omega)
    · simp only [ne_eq, hk, not_false_eq_true, decide_true, List.filter_cons_of_pos, Memory.wfFrom, Bool.and_eq_true,
        decide_eq_true_eq]
      exact ⟨h.1, ih'⟩

theorem Memory.wfFrom_insert {m : Memory} {lo a : Nat} {v : Byte} (h : Memory.wfFrom lo m = true) (hla : lo ≤ a)
    (hv : v ≠ Config.unlistedByte) (hm : ∀ c ∈ m, c.1 ≠ a) : Memory.wfFrom lo (m.insert a v) = true := by
  induction m generalizing lo with
  | nil => simp [Memory.insert, Memory.wfFrom, hla, hv]
  | cons c m ih =>
    obtain ⟨k, w⟩ := c
    have hk : k ≠ a := hm (k, w) (by simp)
    simp only [Memory.wfFrom, Bool.and_eq_true, decide_eq_true_eq] at h
    simp only [Memory.insert]
    split
    · next hlt =>
      simp only [Memory.wfFrom, Bool.and_eq_true, decide_eq_true_eq]
      exact ⟨⟨hla, hv⟩, ⟨⟨by omega, h.1.2⟩, h.2⟩⟩
    · next hlt =>
      simp only [Memory.wfFrom, Bool.and_eq_true, decide_eq_true_eq]
      exact ⟨h.1, ih h.2 (by omega) (fun c hc => hm c (by simp [hc]))⟩

/-- A write keeps the canonical form. -/
theorem Memory.wf_write {m : Memory} (a : Nat) (v : Byte) (h : m.wf = true) : (m.write a v).wf = true := by
  unfold Memory.write
  split
  · exact Memory.wfFrom_erase a h
  · next hv => exact Memory.wfFrom_insert (Memory.wfFrom_erase a h) (Nat.zero_le a) hv Memory.fst_ne_of_mem_erase

theorem Memory.mem_insert {m : Memory} {a : Nat} {v : Byte} {c : Host.Cell} (h : c ∈ m.insert a v) :
    c = (a, v) ∨ c ∈ m := by
  induction m with
  | nil => simpa [Memory.insert] using h
  | cons d m ih =>
    obtain ⟨k, w⟩ := d
    simp only [Memory.insert] at h
    split at h
    · simpa using h
    · rcases List.mem_cons.mp h with h | h
      · exact .inr (by simp [h])
      · rcases ih h with h | h
        · exact .inl h
        · exact .inr (by simp [h])

/-- A write below the size lists nothing at or above it. -/
theorem Memory.within_write {m : Memory} {n a : Nat} (v : Byte) (h : m.within n = true) (ha : a < n) :
    (m.write a v).within n = true := by
  simp only [Memory.within, List.all_eq_true, decide_eq_true_eq] at h ⊢
  intro c hc
  unfold Memory.write at hc
  split at hc
  · exact h c (List.mem_filter.mp hc).1
  · rcases Memory.mem_insert hc with rfl | hc
    · exact ha
    · exact h c (List.mem_filter.mp hc).1

@[simp] theorem Memory.wf_nil : Memory.wf [] = true := rfl
@[simp] theorem Memory.within_nil (n : Nat) : Memory.within n [] = true := rfl
@[simp] theorem Memory.read_nil (a : Nat) : Memory.read [] a = Config.unlistedByte := rfl

/-- A memory made of `n` bytes holds them, and reads as unlisted above them. -/
theorem Memory.read_ofBytes (n : Nat) (f : Nat → Byte) (a : Nat) :
    (Memory.ofBytes n f).read a = if a < n then f a else Config.unlistedByte := by
  induction n with
  | zero => simp [Memory.ofBytes]
  | succ n ih =>
    simp only [Memory.ofBytes, Memory.read_write, ih]
    by_cases h : a = n
    · simp [h]
    · by_cases h' : a < n
      · simp [h, h', Nat.lt_succ_of_lt h']
      · have : ¬ a < n + 1 := by omega
        simp [h, h', this]

theorem Memory.wf_ofBytes (n : Nat) (f : Nat → Byte) : (Memory.ofBytes n f).wf = true := by
  induction n with
  | zero => rfl
  | succ n ih => exact Memory.wf_write n (f n) ih

theorem Memory.within_mono {m : Memory} {n n' : Nat} (h : m.within n = true) (hn : n ≤ n') : m.within n' = true := by
  simp only [Memory.within, List.all_eq_true, decide_eq_true_eq] at h ⊢
  exact fun c hc => Nat.lt_of_lt_of_le (h c hc) hn

theorem Memory.within_ofBytes (n : Nat) (f : Nat → Byte) : (Memory.ofBytes n f).within n = true := by
  induction n with
  | zero => rfl
  | succ n ih => exact Memory.within_write (f n) (Memory.within_mono ih (Nat.le_succ n)) (Nat.lt_succ_self n)

theorem Memory.read_eq_unlisted_of_wfFrom {m : Memory} {lo a : Nat} (h : Memory.wfFrom lo m = true) (ha : a < lo) :
    m.read a = Config.unlistedByte := by
  induction m generalizing lo with
  | nil => rfl
  | cons c m ih =>
    obtain ⟨k, w⟩ := c
    simp only [Memory.wfFrom, Bool.and_eq_true, decide_eq_true_eq] at h
    have hk : a ≠ k := by omega
    simp only [Memory.read, hk, if_false]
    exact ih h.2 (by omega)

/-- LOADing a word keeps the canonical form. -/
theorem Memory.wf_putWord {m : Memory} (off : Nat) (w : Word) (h : m.wf = true) : (m.putWord off w).wf = true :=
  Memory.wf_write _ _ (Memory.wf_write _ _ h)

/-- LOADing a word writes its low byte first, and nothing else. -/
theorem Memory.read_putWord (m : Memory) (off : Nat) (w : Word) (a : Nat) :
    (m.putWord off w).read a = if a = off + 1 then highByte w else if a = off then lowByte w else m.read a := by
  simp [Memory.putWord]

end Sys2Proof.Machine
end

