-- ==== Sys2Proof/Laws/State.lean ====
section
/-! SUPPORT. One lemma per field per update of the state, so that no proof unfolds a record update. -/

namespace Sys2Proof.Machine

open Sys2Proof

/-! ### `setReg` writes the register file alone. -/

@[simp] theorem State.setReg_regs (s : State) (r : Reg) (v : Word) : (s.setReg r v).regs = s.regs.set r v := rfl
@[simp] theorem State.setReg_prog (s : State) (r : Reg) (v : Word) : (s.setReg r v).prog = s.prog := rfl
@[simp] theorem State.setReg_data (s : State) (r : Reg) (v : Word) : (s.setReg r v).data = s.data := rfl
@[simp] theorem State.setReg_run (s : State) (r : Reg) (v : Word) : (s.setReg r v).run = s.run := rfl
@[simp] theorem State.setReg_sizing (s : State) (r : Reg) (v : Word) : (s.setReg r v).sizing = s.sizing := rfl

/-! ### `setData` writes data memory alone. -/

@[simp] theorem State.setData_regs (s : State) (m : Memory) : (s.setData m).regs = s.regs := rfl
@[simp] theorem State.setData_prog (s : State) (m : Memory) : (s.setData m).prog = s.prog := rfl
@[simp] theorem State.setData_data (s : State) (m : Memory) : (s.setData m).data = m := rfl
@[simp] theorem State.setData_run (s : State) (m : Memory) : (s.setData m).run = s.run := rfl
@[simp] theorem State.setData_sizing (s : State) (m : Memory) : (s.setData m).sizing = s.sizing := rfl

/-! ### `stop` writes the run state alone. -/

@[simp] theorem State.stop_regs (s : State) (f : Fault) : (s.stop f).regs = s.regs := rfl
@[simp] theorem State.stop_prog (s : State) (f : Fault) : (s.stop f).prog = s.prog := rfl
@[simp] theorem State.stop_data (s : State) (f : Fault) : (s.stop f).data = s.data := rfl
@[simp] theorem State.stop_run (s : State) (f : Fault) : (s.stop f).run = .fatal f := rfl
@[simp] theorem State.stop_sizing (s : State) (f : Fault) : (s.stop f).sizing = s.sizing := rfl

/-! ### `advancePc` writes pc alone. -/

@[simp] theorem State.advancePc_regs (s : State) : s.advancePc.regs = s.regs.set .pc (s.reg .pc + 2#16) := rfl
@[simp] theorem State.advancePc_prog (s : State) : s.advancePc.prog = s.prog := rfl
@[simp] theorem State.advancePc_data (s : State) : s.advancePc.data = s.data := rfl
@[simp] theorem State.advancePc_run (s : State) : s.advancePc.run = s.run := rfl
@[simp] theorem State.advancePc_sizing (s : State) : s.advancePc.sizing = s.sizing := rfl

/-! ### The flag updates write sr alone. -/

@[simp] theorem State.noteEqual_prog (s : State) (e : Bool) : (s.noteEqual e).prog = s.prog := rfl
@[simp] theorem State.noteEqual_data (s : State) (e : Bool) : (s.noteEqual e).data = s.data := rfl
@[simp] theorem State.noteEqual_run (s : State) (e : Bool) : (s.noteEqual e).run = s.run := rfl
@[simp] theorem State.noteEqual_sizing (s : State) (e : Bool) : (s.noteEqual e).sizing = s.sizing := rfl

@[simp] theorem State.noteZero_prog (s : State) (res : Word) : (s.noteZero res).prog = s.prog := by
  unfold State.noteZero; split <;> rfl
@[simp] theorem State.noteZero_data (s : State) (res : Word) : (s.noteZero res).data = s.data := by
  unfold State.noteZero; split <;> rfl
@[simp] theorem State.noteZero_run (s : State) (res : Word) : (s.noteZero res).run = s.run := by
  unfold State.noteZero; split <;> rfl
@[simp] theorem State.noteZero_sizing (s : State) (res : Word) : (s.noteZero res).sizing = s.sizing := by
  unfold State.noteZero; split <;> rfl

/-! ### `placeWord` writes program memory alone. -/

@[simp] theorem State.placeWord_regs (s : State) (w : Word) : (s.placeWord w).regs = s.regs := by
  unfold State.placeWord; split <;> rfl
@[simp] theorem State.placeWord_data (s : State) (w : Word) : (s.placeWord w).data = s.data := by
  unfold State.placeWord; split <;> rfl
@[simp] theorem State.placeWord_run (s : State) (w : Word) : (s.placeWord w).run = s.run := by
  unfold State.placeWord; split <;> rfl
@[simp] theorem State.placeWord_sizing (s : State) (w : Word) : (s.placeWord w).sizing = s.sizing := by
  unfold State.placeWord; split <;> rfl
theorem State.placeWord_prog (s : State) (w : Word) (h : s.fetchInBounds (s.reg .pc) = true) :
    (s.placeWord w).prog = s.prog.putWord (s.progOffset (s.reg .pc)) w := by
  unfold State.placeWord; rw [if_pos h]

/-! ### What the launch state holds. -/

@[simp] theorem State.launchState_regs (z : Config.Sizing) (image : List Byte) (v : Word) (p d : Nat → Byte) :
    (State.launchState z image v p d).regs = launchRegs z.loadBase v := rfl
@[simp] theorem State.launchState_prog (z : Config.Sizing) (image : List Byte) (v : Word) (p d : Nat → Byte) :
    (State.launchState z image v p d).prog = Memory.ofBytes z.progMemSize (imageByte image p) := rfl
@[simp] theorem State.launchState_data (z : Config.Sizing) (image : List Byte) (v : Word) (p d : Nat → Byte) :
    (State.launchState z image v p d).data = Memory.ofBytes z.dataMemSize d := rfl
@[simp] theorem State.launchState_run (z : Config.Sizing) (image : List Byte) (v : Word) (p d : Nat → Byte) :
    (State.launchState z image v p d).run = .running := rfl
@[simp] theorem State.launchState_sizing (z : Config.Sizing) (image : List Byte) (v : Word) (p d : Nat → Byte) :
    (State.launchState z image v p d).sizing = z := rfl

/-! ### Interfaces that read only some fields. -/

@[simp] theorem State.progOffset_setReg (s : State) (r : Reg) (v a : Word) :
    (s.setReg r v).progOffset a = s.progOffset a := rfl
@[simp] theorem State.fetchInBounds_setReg (s : State) (r : Reg) (v a : Word) :
    (s.setReg r v).fetchInBounds a = s.fetchInBounds a := rfl
@[simp] theorem State.fetchWord_setReg (s : State) (r : Reg) (v a : Word) :
    (s.setReg r v).fetchWord a = s.fetchWord a := rfl
@[simp] theorem State.dataInBounds_setReg (s : State) (r : Reg) (v a : Word) :
    (s.setReg r v).dataInBounds a = s.dataInBounds a := rfl
@[simp] theorem State.dmemRead_setReg (s : State) (r : Reg) (v a : Word) :
    (s.setReg r v).dmemRead a = s.dmemRead a := rfl

end Sys2Proof.Machine
end

