-- ==== Sys2Proof/Laws/Ops.lean ====
section
/-!
SUPPORT. One lemma for each shared operation that says once what it can do; proofs cite these instead of unfolding.
-/

namespace Sys2Proof.Machine

open Sys2Proof

/-! ### Registers -/

@[simp] theorem Regs.get_set (x : Regs) (r q : Reg) (v : Word) :
    (x.set r v).get q = if q = r then v else x.get q := by
  cases r <;> cases q <;> rfl

@[simp] theorem State.reg_setReg (s : State) (r q : Reg) (v : Word) :
    (s.setReg r v).reg q = if q = r then v else s.reg q := by
  simp [State.reg]

@[simp] theorem State.reg_setData (s : State) (m : Memory) (q : Reg) : (s.setData m).reg q = s.reg q := rfl
@[simp] theorem State.reg_stop (s : State) (f : Fault) (q : Reg) : (s.stop f).reg q = s.reg q := rfl
@[simp] theorem State.reg_placeWord (s : State) (w : Word) (q : Reg) : (s.placeWord w).reg q = s.reg q := by
  simp [State.reg]

/-- The pc increment: pc advances by one word-slot, no other register changes (10_state.md R28). -/
@[simp] theorem State.reg_advancePc (s : State) (q : Reg) :
    s.advancePc.reg q = if q = .pc then s.reg .pc + 2#16 else s.reg q := by
  simp [State.advancePc]

/-- The Z update changes sr alone (41_alu.md R130). -/
@[simp] theorem State.reg_noteZero (s : State) (res : Word) (q : Reg) :
    (s.noteZero res).reg q = if q = .sr ∧ res = 0#16 then s.reg .sr ||| 0x0001#16 else s.reg q := by
  unfold State.noteZero
  by_cases h : res = 0#16 <;> simp [h]

/-- The E update changes sr alone (41_alu.md R135). -/
@[simp] theorem State.reg_noteEqual (s : State) (e : Bool) (q : Reg) :
    (s.noteEqual e).reg q =
      if q = .sr then (if e then s.reg .sr ||| 0x0002#16 else s.reg .sr &&& ~~~(0x0002#16)) else s.reg q := by
  simp [State.noteEqual]

/-- Register files that read the same are equal data. -/
theorem Regs.ext_get {x y : Regs} (h : ∀ q, x.get q = y.get q) : x = y := by
  cases x; cases y
  simp only [Regs.mk.injEq]
  exact ⟨h .a0, h .a1, h .a2, h .a3, h .t0, h .t1, h .t2, h .t3, h .pc, h .lr, h .sr, h .sp⟩

/-- States with the same registers and the same other fields are equal. -/
theorem State.ext_fields {s t : State} (hr : ∀ q, s.reg q = t.reg q) (hp : s.prog = t.prog) (hd : s.data = t.data)
    (hu : s.run = t.run) (hz : s.sizing = t.sizing) : s = t := by
  cases s; cases t
  simp only [State.mk.injEq]
  exact ⟨Regs.ext_get hr, hp, hd, hu, hz⟩

/-! ### Register indices -/

theorem Reg.index_lt (r : Reg) : r.index < 12 := by cases r <;> decide

@[simp] theorem Reg.ofIndex_index (r : Reg) : Reg.ofIndex r.index = some r := by cases r <;> rfl

@[simp] theorem Reg.toNat_field (r : Reg) : r.field.toNat = r.index := by cases r <;> rfl

@[simp] theorem Reg.toNat_addrField (r : Reg) : r.addrField.toNat = r.index := by cases r <;> rfl

theorem Reg.index_injective {p q : Reg} (h : p.index = q.index) : p = q := by
  have := congrArg Reg.ofIndex h
  simpa using this

/-- An index selects a register exactly when it is that register's (10_state.md R20). -/
theorem Reg.ofIndex_eq_some {i : Nat} {r : Reg} : Reg.ofIndex i = some r ↔ i = r.index := by
  constructor
  · intro h
    match i, h with
    | 0, h | 1, h | 2, h | 3, h | 4, h | 5, h | 6, h | 7, h | 8, h | 9, h | 10, h | 11, h => cases h; rfl
    | _ + 12, h => cases h
  · rintro rfl; simp

/-- The indices that select no register are those above 11 (10_state.md R24). -/
theorem Reg.ofIndex_eq_none {i : Nat} : Reg.ofIndex i = none ↔ 11 < i := by
  constructor
  · intro h
    match i, h with
    | n + 12, _ => omega
  · intro h
    match i, h with
    | n + 12, _ => rfl

/-- `check_reg` either passes with the register the index names or stops (00_scope.md R10). -/
theorem withReg_cases (i : Nat) (s : State) (k : Reg → Result) :
    (∃ r, i = r.index ∧ withReg i s k = k r) ∨
      (11 < i ∧ withReg i s k = .next (s.stop (.registerIndexOutOfRange i))) := by
  unfold withReg
  cases h : Reg.ofIndex i with
  | some r => exact .inl ⟨r, Reg.ofIndex_eq_some.mp h, rfl⟩
  | none => exact .inr ⟨Reg.ofIndex_eq_none.mp h, rfl⟩

@[simp] theorem withReg_index (r : Reg) (s : State) (k : Reg → Result) : withReg r.index s k = k r := by
  simp [withReg]

theorem withReg_outOfRange {i : Nat} (s : State) (k : Reg → Result) (h : 11 < i) :
    withReg i s k = .next (s.stop (.registerIndexOutOfRange i)) := by
  simp [withReg, Reg.ofIndex_eq_none.mpr h, raise]

@[simp] theorem withRegs_index (p q : Reg) (s : State) (k : Reg → Reg → Result) :
    withRegs p.index q.index s k = k p q := by
  simp [withRegs]

/-- The two checks, in order: both registers exist, or the first index that does not exist is reported
(60_exceptions.md R162). -/
theorem withRegs_cases (i j : Nat) (s : State) (k : Reg → Reg → Result) :
    (∃ p q, i = p.index ∧ j = q.index ∧ withRegs i j s k = k p q) ∨
      (11 < i ∧ withRegs i j s k = .next (s.stop (.registerIndexOutOfRange i))) ∨
      (i ≤ 11 ∧ 11 < j ∧ withRegs i j s k = .next (s.stop (.registerIndexOutOfRange j))) := by
  unfold withRegs
  rcases withReg_cases i s (fun p => withReg j s fun q => k p q) with ⟨p, hi, hp⟩ | ⟨hi, hp⟩
  · rcases withReg_cases j s (fun q => k p q) with ⟨q, hj, hq⟩ | ⟨hj, hq⟩
    · exact .inl ⟨p, q, hi, hj, hp.trans hq⟩
    · have := Reg.index_lt p
      exact .inr (.inr ⟨by omega, hj, hp.trans hq⟩)
  · exact .inr (.inl ⟨hi, hp⟩)

/-! ### Data memory -/

/-- A read is in bounds and gives the byte, or gives nothing (20_memory.md R57). -/
theorem State.dmemRead_cases (s : State) (a : Word) :
    (a.toNat < s.sizing.dataMemSize ∧ s.dmemRead a = some (s.data.read a.toNat)) ∨
      (s.sizing.dataMemSize ≤ a.toNat ∧ s.dmemRead a = none) := by
  unfold State.dmemRead State.dataInBounds
  by_cases h : a.toNat < s.sizing.dataMemSize
  · exact .inl ⟨h, by simp [h]⟩
  · exact .inr ⟨by omega, by simp [h]⟩

/-- A write is in bounds and stores one byte, or does nothing (20_memory.md R57). -/
theorem State.dmemWrite_cases (s : State) (a : Word) (v : Byte) :
    (a.toNat < s.sizing.dataMemSize ∧ s.dmemWrite a v = some (s.setData (s.data.write a.toNat v))) ∨
      (s.sizing.dataMemSize ≤ a.toNat ∧ s.dmemWrite a v = none) := by
  unfold State.dmemWrite State.dataInBounds
  by_cases h : a.toNat < s.sizing.dataMemSize
  · exact .inl ⟨h, by simp [h]⟩
  · exact .inr ⟨by omega, by simp [h]⟩

/-! ### The shared meanings -/

/-- What ADD, SUB, OR and AND can do (41_alu.md R130). -/
theorem aluOp_cases (op : Word → Word → Word) (rand1 rand2 : Nibble) (s : State) :
    (∃ d q : Reg, rand1.toNat = d.index ∧ rand2.toNat = q.index ∧
        aluOp op rand1 rand2 s =
          .next ((s.setReg d (op (s.reg d) (s.reg q))).noteZero (op (s.reg d) (s.reg q)))) ∨
      (11 < rand1.toNat ∧ aluOp op rand1 rand2 s = .next (s.stop (.registerIndexOutOfRange rand1.toNat))) ∨
      (rand1.toNat ≤ 11 ∧ 11 < rand2.toNat ∧
        aluOp op rand1 rand2 s = .next (s.stop (.registerIndexOutOfRange rand2.toNat))) :=
  withRegs_cases _ _ _ _

/-- What LD can do (42_load_store.md R140). -/
theorem execLd_cases (r : Nibble) (ai : Byte) (s : State) :
    (∃ d a : Reg, r.toNat = d.index ∧ ai.toNat = a.index ∧ (s.reg a).toNat < s.sizing.dataMemSize ∧
        execLd r ai s = .next (s.setReg d (zext16 (s.data.read (s.reg a).toNat)))) ∨
      (∃ d a : Reg, r.toNat = d.index ∧ ai.toNat = a.index ∧ s.sizing.dataMemSize ≤ (s.reg a).toNat ∧
        execLd r ai s = .next (s.stop (.dataAddressOutOfRange (s.reg a)))) ∨
      (11 < r.toNat ∧ execLd r ai s = .next (s.stop (.registerIndexOutOfRange r.toNat))) ∨
      (r.toNat ≤ 11 ∧ 11 < ai.toNat ∧ execLd r ai s = .next (s.stop (.registerIndexOutOfRange ai.toNat))) := by
  unfold execLd
  rcases withRegs_cases r.toNat ai.toNat s (fun d a =>
      match s.dmemRead (s.reg a) with
      | some v => .next (s.setReg d (zext16 v))
      | none => raise (.dataAddressOutOfRange (s.reg a)) s) with ⟨d, a, hd, ha, h⟩ | h | h
  · rcases s.dmemRead_cases (s.reg a) with ⟨hb, hr⟩ | ⟨hb, hr⟩
    · exact .inl ⟨d, a, hd, ha, hb, h.trans (by simp only [hr])⟩
    · exact .inr (.inl ⟨d, a, hd, ha, hb, h.trans (by simp only [hr]; rfl)⟩)
  · exact .inr (.inr (.inl h))
  · exact .inr (.inr (.inr h))

/-- What ST can do (42_load_store.md R141). -/
theorem execSt_cases (r : Nibble) (ai : Byte) (s : State) :
    (∃ v a : Reg, r.toNat = v.index ∧ ai.toNat = a.index ∧ (s.reg a).toNat < s.sizing.dataMemSize ∧
        execSt r ai s = .next (s.setData (s.data.write (s.reg a).toNat (lowByte (s.reg v))))) ∨
      (∃ v a : Reg, r.toNat = v.index ∧ ai.toNat = a.index ∧ s.sizing.dataMemSize ≤ (s.reg a).toNat ∧
        execSt r ai s = .next (s.stop (.dataAddressOutOfRange (s.reg a)))) ∨
      (11 < r.toNat ∧ execSt r ai s = .next (s.stop (.registerIndexOutOfRange r.toNat))) ∨
      (r.toNat ≤ 11 ∧ 11 < ai.toNat ∧ execSt r ai s = .next (s.stop (.registerIndexOutOfRange ai.toNat))) := by
  unfold execSt
  rcases withRegs_cases r.toNat ai.toNat s (fun v a =>
      match s.dmemWrite (s.reg a) (lowByte (s.reg v)) with
      | some t => .next t
      | none => raise (.dataAddressOutOfRange (s.reg a)) s) with ⟨v, a, hv, ha, h⟩ | h | h
  · rcases s.dmemWrite_cases (s.reg a) (lowByte (s.reg v)) with ⟨hb, hw⟩ | ⟨hb, hw⟩
    · exact .inl ⟨v, a, hv, ha, hb, h.trans (by simp only [hw])⟩
    · exact .inr (.inl ⟨v, a, hv, ha, hb, h.trans (by simp only [hw]; rfl)⟩)
  · exact .inr (.inr (.inl h))
  · exact .inr (.inr (.inr h))

/-- A branch changes pc alone, and only when taken (43_branch.md R150 to R152). -/
@[simp] theorem reg_branchIf (taken : Bool) (imm8 : Byte) (s : State) (q : Reg) :
    (branchIf taken imm8 s).reg q = if taken ∧ q = .pc then zext16 imm8 else s.reg q := by
  unfold branchIf
  cases taken <;> simp

@[simp] theorem branchIf_prog (taken : Bool) (imm8 : Byte) (s : State) : (branchIf taken imm8 s).prog = s.prog := by
  unfold branchIf; split <;> rfl
@[simp] theorem branchIf_data (taken : Bool) (imm8 : Byte) (s : State) : (branchIf taken imm8 s).data = s.data := by
  unfold branchIf; split <;> rfl
@[simp] theorem branchIf_run (taken : Bool) (imm8 : Byte) (s : State) : (branchIf taken imm8 s).run = s.run := by
  unfold branchIf; split <;> rfl
@[simp] theorem branchIf_sizing (taken : Bool) (imm8 : Byte) (s : State) :
    (branchIf taken imm8 s).sizing = s.sizing := by
  unfold branchIf; split <;> rfl

/-! ### Fetch and the cycle -/

/-- A fetch is in bounds and gives the little-endian word, or gives nothing (20_memory.md R52, R53). -/
theorem State.fetchWord_cases (s : State) (a : Word) :
    (s.sizing.loadBase.toNat ≤ a.toNat ∧ s.progOffset a + 1 < s.sizing.progMemSize ∧
        s.fetchWord a = some (wordOfBytes (s.prog.read (s.progOffset a)) (s.prog.read (s.progOffset a + 1)))) ∨
      ((a.toNat < s.sizing.loadBase.toNat ∨ s.sizing.progMemSize ≤ s.progOffset a + 1) ∧ s.fetchWord a = none) := by
  unfold State.fetchWord State.fetchInBounds
  by_cases h : s.sizing.loadBase.toNat ≤ a.toNat ∧ s.progOffset a + 1 < s.sizing.progMemSize
  · exact .inl ⟨h.1, h.2, by simp [h.1, h.2]⟩
  · refine .inr ⟨by omega, ?_⟩
    rw [if_neg (by simpa using h)]

/-- What follows the pc increment (30_encoding.md R98, R99). -/
theorem dispatchWord_cases (ex : Instr → State → Result) (w : Word) (s : State) :
    (∃ i, decode w = .instr i ∧ dispatchWord ex w s = ex i s) ∨
      (∃ op, decode w = .invalidOpcode op ∧ dispatchWord ex w s = .next (s.stop (.invalidOpcode op))) ∨
      (∃ op fn, decode w = .invalidFunction op fn ∧ dispatchWord ex w s = .next (s.stop (.invalidFunction op fn))) := by
  unfold dispatchWord
  cases h : decode w with
  | instr i => exact .inl ⟨i, rfl, rfl⟩
  | invalidOpcode op => exact .inr (.inl ⟨op, rfl, rfl⟩)
  | invalidFunction op fn => exact .inr (.inr ⟨op, fn, rfl, rfl⟩)

/-- What a step can do: answer the fault of a stopped block, stop at fetch, or dispatch the fetched word with the pc
advanced (30_encoding.md R96, R97; 60_exceptions.md R160). -/
theorem step_cases (s : State) :
    (∃ f, s.run = .fatal f ∧ step s = .fault f) ∨
      (s.run = .running ∧ s.fetchWord (s.reg .pc) = none ∧ step s = .next (s.stop (.fetchOutOfRange (s.reg .pc)))) ∨
      (∃ w, s.run = .running ∧ s.fetchWord (s.reg .pc) = some w ∧ step s = dispatchWord exec w s.advancePc) := by
  unfold step cycle
  cases hr : s.run with
  | fatal f => exact .inl ⟨f, rfl, rfl⟩
  | running =>
    cases hf : s.fetchWord (s.reg .pc) with
    | none => exact .inr (.inl ⟨rfl, rfl, rfl⟩)
    | some w => exact .inr (.inr ⟨w, rfl, rfl, rfl⟩)

end Sys2Proof.Machine
end

