-- ==== Sys2Proof/Laws/Exec.lean ====
section
/-! SUPPORT. What decoding, one instruction and a run can do, each said once. -/

namespace Sys2Proof.Machine

open Sys2Proof

/-- What one instruction can do (30_encoding.md R99): stop; write its destination; write it and then note a zero result; write
E; store one data byte; or branch. -/
theorem exec_cases (i : Instr) (s : State) :
    (∃ f, exec i s = .next (s.stop f)) ∨
      (∃ d v, i.destIndex = some d.index ∧ i.setsZero = false ∧ exec i s = .next (s.setReg d v)) ∨
      (∃ d v, i.destIndex = some d.index ∧ i.setsZero = true ∧ exec i s = .next ((s.setReg d v).noteZero v)) ∨
      (∃ e, i.isCmp = true ∧ exec i s = .next (s.noteEqual e)) ∨
      (∃ a v, a < s.sizing.dataMemSize ∧ exec i s = .next (s.setData (s.data.write a v))) ∨
      (∃ n, exec i s = .next (branchIf (i.takenIn s) n s)) := by
  cases i with
  | mov x y =>
    rcases withRegs_cases x.toNat y.toNat s (fun d r => .next (s.setReg d (s.reg r))) with ⟨p, q, hp, _, e⟩ | ⟨_, e⟩ | ⟨_, _, e⟩
    · exact .inr (.inl ⟨p, _, congrArg some hp, rfl, e⟩)
    · exact .inl ⟨_, e⟩
    · exact .inl ⟨_, e⟩
  | movi r n =>
    rcases withReg_cases r.toNat s (fun d => .next (s.setReg d (zext16 n))) with ⟨p, hp, e⟩ | ⟨_, e⟩
    · exact .inr (.inl ⟨p, _, congrArg some hp, rfl, e⟩)
    · exact .inl ⟨_, e⟩
  | add x y | sub x y | or x y | and x y =>
    rcases aluOp_cases _ x y s with ⟨p, q, hp, _, e⟩ | ⟨_, e⟩ | ⟨_, _, e⟩
    · exact .inr (.inr (.inl ⟨p, _, congrArg some hp, rfl, e⟩))
    · exact .inl ⟨_, e⟩
    · exact .inl ⟨_, e⟩
  | cmp x y =>
    rcases withRegs_cases x.toNat y.toNat s (fun p q => .next (s.noteEqual (s.reg p == s.reg q)))
      with ⟨p, q, _, _, e⟩ | ⟨_, e⟩ | ⟨_, _, e⟩
    · exact .inr (.inr (.inr (.inl ⟨_, rfl, e⟩)))
    · exact .inl ⟨_, e⟩
    · exact .inl ⟨_, e⟩
  | ld r n =>
    rcases execLd_cases r n s with ⟨p, q, hp, _, _, e⟩ | ⟨_, _, _, _, _, e⟩ | ⟨_, e⟩ | ⟨_, _, e⟩
    · exact .inr (.inl ⟨p, _, congrArg some hp, rfl, e⟩)
    all_goals exact .inl ⟨_, e⟩
  | st r n =>
    rcases execSt_cases r n s with ⟨_, _, _, _, hb, e⟩ | ⟨_, _, _, _, _, e⟩ | ⟨_, e⟩ | ⟨_, _, e⟩
    · exact .inr (.inr (.inr (.inr (.inl ⟨_, _, hb, e⟩))))
    all_goals exact .inl ⟨_, e⟩
  | b n => exact .inr (.inr (.inr (.inr (.inr ⟨n, rfl⟩))))
  | beq n => exact .inr (.inr (.inr (.inr (.inr ⟨n, rfl⟩))))
  | bz n => exact .inr (.inr (.inr (.inr (.inr ⟨n, rfl⟩))))

/-- `runSteps` is the host's run of the machine. -/
theorem runSteps_eq_core_run (k : Nat) (s : State) : runSteps k s = Host.Core.run Sys2Proof.core k s := by
  induction k generalizing s with
  | zero => rfl
  | succ k ih =>
    have h : Sys2Proof.core.step s = step s := rfl
    simp only [runSteps, Host.Core.run, h]
    cases step s with
    | next t => exact ih t
    | fault f => rfl
    | refused r => rfl

end Sys2Proof.Machine
end

