-- ==== Sys2Proof/Laws/PerInstr.lean ====
section
/-! SUPPORT. The family `EncodesFields`, one lemma per constructor of `Instr`. -/

namespace Sys2Proof.Laws.EncodesFields

open Sys2Proof

/-- The word the assembler writes holds the instruction's opcode in w[15:12] and its function, or the register index that
stands in its place, in w[11:8] (30_encoding.md R81, R84, R102). -/
def Statement (i : Instr) : Prop := opcodeOf (encode i) = i.opcode ∧ funcOf (encode i) = i.func

theorem mov (x y : Nibble) : Statement (.mov x y) := ⟨opcodeOf_registerForm .., funcOf_registerForm ..⟩
theorem movi (r : Nibble) (n : Byte) : Statement (.movi r n) := ⟨opcodeOf_immediateForm .., funcOf_immediateForm ..⟩
theorem add (x y : Nibble) : Statement (.add x y) := ⟨opcodeOf_registerForm .., funcOf_registerForm ..⟩
theorem sub (x y : Nibble) : Statement (.sub x y) := ⟨opcodeOf_registerForm .., funcOf_registerForm ..⟩
theorem or (x y : Nibble) : Statement (.or x y) := ⟨opcodeOf_registerForm .., funcOf_registerForm ..⟩
theorem and (x y : Nibble) : Statement (.and x y) := ⟨opcodeOf_registerForm .., funcOf_registerForm ..⟩
theorem cmp (x y : Nibble) : Statement (.cmp x y) := ⟨opcodeOf_registerForm .., funcOf_registerForm ..⟩
theorem ld (r : Nibble) (n : Byte) : Statement (.ld r n) := ⟨opcodeOf_immediateForm .., funcOf_immediateForm ..⟩
theorem st (r : Nibble) (n : Byte) : Statement (.st r n) := ⟨opcodeOf_immediateForm .., funcOf_immediateForm ..⟩
theorem b (n : Byte) : Statement (.b n) := ⟨opcodeOf_immediateForm .., funcOf_immediateForm ..⟩
theorem beq (n : Byte) : Statement (.beq n) := ⟨opcodeOf_immediateForm .., funcOf_immediateForm ..⟩
theorem bz (n : Byte) : Statement (.bz n) := ⟨opcodeOf_immediateForm .., funcOf_immediateForm ..⟩

end Sys2Proof.Laws.EncodesFields
end

