-- ==== Sys2Proof/Tests/Slice0.lean ====
section
/-!
SUPPORT. Tests on fixed values, taken from 95_test_vectors.md (V<n>, S<n>) or worked out by hand from the rules, and the
witnesses of the statements' hypotheses.
-/

namespace Sys2Proof.Tests

open Sys2Proof Sys2Proof.Machine

/-- The state an answer holds, if it is a next state. -/
def nextOf : Result → Option State
  | .next t => some t
  | _ => none

/-- The reset state with some registers set. -/
def withRegsSet (rs : List (Reg × Word)) : State := rs.foldl (fun s p => s.setReg p.1 p.2) State.reset

/-- The state after the word placed at 0x0400 runs as the first instruction, from the reset state with some registers set. -/
def after (w : Nat) (rs : List (Reg × Word)) : Option State := nextOf (step ((withRegsSet rs).withFetchWord 16 w))

/-- A register, pc and sr after that instruction. -/
def regPcSr (w : Nat) (rs : List (Reg × Word)) (r : Reg) : Option (Word × Word × Word) :=
  (after w rs).map fun t => (t.reg r, t.reg .pc, t.reg .sr)

/-- The run state and pc after that instruction. -/
def runPc (w : Nat) (rs : List (Reg × Word)) : Option (RunState × Word) := (after w rs).map fun t => (t.run, t.reg .pc)

/-! ### WellFormed smoke tests: an index above 11 in each register field is refused (10_state.md R24) -/

theorem test_wf_mov_rand1 : (Instr.mov 12 0).wellFormed = false := by decide
theorem test_wf_mov_rand2 : (Instr.mov 0 15).wellFormed = false := by decide
theorem test_wf_movi : (Instr.movi 12 5).wellFormed = false := by decide
theorem test_wf_add : (Instr.add 0 12).wellFormed = false := by decide
theorem test_wf_sub : (Instr.sub 13 0).wellFormed = false := by decide
theorem test_wf_or : (Instr.or 0 14).wellFormed = false := by decide
theorem test_wf_and : (Instr.and 15 0).wellFormed = false := by decide
theorem test_wf_cmp : (Instr.cmp 0 12).wellFormed = false := by decide
theorem test_wf_ld_ai : (Instr.ld 0 12).wellFormed = false := by decide
theorem test_wf_st_r : (Instr.st 12 0).wellFormed = false := by decide
theorem test_wf_accepts_11 : (Instr.mov 11 11).wellFormed = true := by decide

/-! ### Every constructor's decoding, on a word written out from R111 -/

theorem test_decode_mov : decode 0b0000000000000101#16 = .instr (.mov 0 5) := by decide
theorem test_decode_mov_ignored : decode 0b0000111100000101#16 = .instr (.mov 0 5) := by decide
theorem test_decode_movi : decode 0b0001001000000111#16 = .instr (.movi 2 7) := by decide
theorem test_decode_add : decode 0b0010000001000001#16 = .instr (.add 4 1) := by decide
theorem test_decode_sub : decode 0b0010000101110010#16 = .instr (.sub 7 2) := by decide
theorem test_decode_or : decode 0b0010001000110001#16 = .instr (.or 3 1) := by decide
theorem test_decode_and : decode 0b0010001101000101#16 = .instr (.and 4 5) := by decide
theorem test_decode_cmp : decode 0b0010010000000001#16 = .instr (.cmp 0 1) := by decide
theorem test_decode_ld : decode 0b0011010000000001#16 = .instr (.ld 4 1) := by decide
theorem test_decode_st : decode 0b0100000100010010#16 = .instr (.st 1 18) := by decide
theorem test_decode_b : decode 0b0101000010000001#16 = .instr (.b 129) := by decide
theorem test_decode_beq : decode 0b0101000100010100#16 = .instr (.beq 20) := by decide
theorem test_decode_bz : decode 0b0101001000110010#16 = .instr (.bz 50) := by decide
theorem test_decode_bad_opcode : decode 0x6000#16 = .invalidOpcode 6 := by decide
theorem test_decode_bad_alu : decode 0x2501#16 = .invalidFunction 2 5 := by decide
theorem test_decode_bad_branch : decode 0x5300#16 = .invalidFunction 5 3 := by decide
/-- S2: `add $t0 $a1` is the bytes 41 20. -/
theorem test_decode_bytes : decodeBytes [0x41, 0x20, 0x07] = .word (.instr (.add 4 1)) [0x07] := by decide
theorem test_decode_table_word : decodeTableWord 16 0x1207 = some (.movi 2 7) := by decide

/-! ### One step of each instruction -/

/-- V1, V4. -/
theorem test_mov : regPcSr 0x0005 [(.t1, 0x1234)] .a0 = some (0x1234, 0x0402, 0) := by decide
theorem test_mov_to_pc : regPcSr 0x0084 [(.t0, 0x0440)] .t0 = some (0x0440, 0x0440, 0) := by decide
/-- V10, V11. -/
theorem test_movi : regPcSr 0x10FF [(.a0, 0xFFFF)] .a0 = some (0x00FF, 0x0402, 0) := by decide
theorem test_movi_to_sr : regPcSr 0x1A00 [(.sr, 3)] .sr = some (0, 0x0402, 0) := by decide
/-- V15, V19. -/
theorem test_add_wraps : regPcSr 0x2001 [(.a0, 0xFFFF), (.a1, 1)] .a0 = some (0, 0x0402, 1) := by decide
theorem test_add_to_sr : regPcSr 0x20A0 [] .sr = some (1, 0x0402, 1) := by decide
/-- V22, V23. -/
theorem test_sub_zero : regPcSr 0x2101 [(.a0, 5), (.a1, 5), (.sr, 2)] .a0 = some (0, 0x0402, 3) := by decide
theorem test_sub_wraps : regPcSr 0x2101 [(.a1, 1)] .a0 = some (0xFFFF, 0x0402, 0) := by decide
/-- V26, V27. -/
theorem test_or : regPcSr 0x2201 [(.a0, 0x00F0), (.a1, 0x0F00)] .a0 = some (0x0FF0, 0x0402, 0) := by decide
theorem test_or_zero : regPcSr 0x2201 [] .a0 = some (0, 0x0402, 1) := by decide
/-- V29, V30. -/
theorem test_and : regPcSr 0x2345 [(.t0, 3), (.t1, 2)] .t0 = some (2, 0x0402, 0) := by decide
theorem test_and_to_sr : regPcSr 0x23A0 [(.sr, 2), (.a0, 1)] .sr = some (1, 0x0402, 1) := by decide
/-- V34, V37. -/
theorem test_cmp_clears : regPcSr 0x2401 [(.a0, 9), (.a1, 8), (.sr, 3)] .a0 = some (9, 0x0402, 1) := by decide
theorem test_cmp_keeps : regPcSr 0x2401 [(.sr, 0xFFFC)] .a0 = some (0, 0x0402, 0xFFFE) := by decide
/-- V40, with the data byte set beside the registers; V43. -/
theorem test_ld : ((nextOf (step (((withRegsSet [(.a1, 0x03FF), (.a0, 0xFFFF)]).setData [(0x3FF, 0x80)]).withFetchWord
    16 0x3001))).map fun t => (t.reg .a0, t.reg .sr)) = some (0x0080, 0) := by decide
theorem test_ld_from_pc : runPc 0x3008 [] = some (.fatal (.dataAddressOutOfRange 0x0402), 0x0402) := by decide
/-- V46, V48. -/
theorem test_st : (after 0x4201 [(.a2, 0x012C), (.a1, 0x0010)]).map (fun t => t.data) = some [(0x10, 0x2C)] := by decide
theorem test_st_out : runPc 0x4001 [(.a1, 0xFFFF)] = some (.fatal (.dataAddressOutOfRange 0xFFFF), 0x0402) := by decide
/-- V49 (and its next cycle). -/
theorem test_b : runPc 0x5000 [] = some (.running, 0) := by decide
theorem test_b_next : ((after 0x5000 []).bind fun t => nextOf (step t)).map (fun u => (u.run, u.reg .pc)) =
    some (.fatal (.fetchOutOfRange 0), 0) := by decide
/-- V50, V51. -/
theorem test_beq_not : runPc 0x5114 [(.sr, 1)] = some (.running, 0x0402) := by decide
theorem test_beq : runPc 0x5114 [(.sr, 2)] = some (.running, 0x0014) := by decide
/-- V54, V53. -/
theorem test_bz_not : runPc 0x5232 [(.sr, 0xFFFC)] = some (.running, 0x0402) := by decide
theorem test_bz : runPc 0x5232 [(.sr, 1)] = some (.running, 0x0032) := by decide

/-! ### Fatal conditions -/

/-- V7, V44, V31, V57, V60. -/
theorem test_fatal_index : runPc 0x00C0 [] = some (.fatal (.registerIndexOutOfRange 12), 0x0402) := by decide
theorem test_fatal_order : runPc 0x3F0C [] = some (.fatal (.registerIndexOutOfRange 15), 0x0402) := by decide
theorem test_fatal_function : runPc 0x2501 [] = some (.fatal (.invalidFunction 2 5), 0x0402) := by decide
theorem test_fatal_opcode : runPc 0xFFFF [] = some (.fatal (.invalidOpcode 15), 0x0402) := by decide
theorem test_fatal_fetch : runPc 0x0000 [(.pc, 0x07FF)] = some (.fatal (.fetchOutOfRange 0x07FF), 0x07FF) := by decide
/-- V59: a fetch at 0x07FE is legal. -/
theorem test_fetch_top : runPc 0x10FF [(.pc, 0x07FE)] = some (.running, 0x0800) := by decide
/-- V61: an odd pc fetches the word across two instructions, `st $a1 18`. -/
theorem test_fetch_odd : (nextOf (step { (withRegsSet [(.pc, 0x0401)]) with
    prog := [(0, 0x07), (1, 0x12), (2, 0x41), (3, 0x20)] })).map (fun t => (t.run, t.reg .pc)) =
    some (.fatal (.registerIndexOutOfRange 18), 0x0403) := by decide

/-! ### Notation: S1, S3, S9, S10, and a field with no name (R110) -/

theorem test_asm_mov : assembleLine "mov $a0 $t1\n" = some 0x0005 := by decide
theorem test_asm_movi : assembleLine "movi $a2 7\n" = some 0x1207 := by decide
theorem test_asm_bad_register : assembleWord ["movi", "$a4", "7"] = none := by decide
theorem test_asm_bad_mnemonic : assembleWord ["halt"] = none := by decide
theorem test_disasm : disassemble (.ld 12 255) = ["ld", "$r12", "255"] := by decide
/-- The first two words of program P5. -/
theorem test_image : imageOf [.movi 0 7, .movi 1 200] = [0x07, 0x10, 0xC8, 0x11] := by decide
/-- EXIT_PC is the observer's alone (D18). -/
theorem test_observed_end : State.reset.observedEnded (some 0x0400) = true := by decide
theorem test_safe_step : SafeStep State.reset := ⟨_, rfl, rfl⟩

/-! ### Witnesses: values that meet the hypotheses of each statement that has some -/

/-- RegisterFormStops: both clauses at their boundaries. -/
theorem witness_RegisterFormStops : 11 < (12 : Nibble).toNat ∧ ((11 : Nibble).toNat ≤ 11 ∧ 11 < (12 : Nibble).toNat) := by
  decide
theorem witness_Movi_index : 11 < (12 : Nibble).toNat := by decide
/-- LD and ST: the highest legal address, the lowest illegal one, and each index check at its boundary (r, then ai). -/
theorem witness_LoadStore : (∃ s : State, (s.reg .a1).toNat < s.sizing.dataMemSize ∧ (s.reg .a1).toNat = 1023) ∧
    (∃ s : State, s.sizing.dataMemSize ≤ (s.reg .a1).toNat ∧ (s.reg .a1).toNat = 1024) ∧
    11 < (12 : Nibble).toNat ∧ ((11 : Nibble).toNat ≤ 11 ∧ 11 < (12 : Byte).toNat) :=
  ⟨⟨withRegsSet [(.a1, 1023)], by decide⟩, ⟨withRegsSet [(.a1, 1024)], by decide⟩, by decide, by decide⟩
theorem witness_StoreThenLoad : ∃ s t : State, (s.reg .a1).toNat < s.sizing.dataMemSize ∧
    exec (.st Reg.a0.field Reg.a1.addrField) s = .next t :=
  ⟨withRegsSet [(.a0, 42), (.a1, 1023)], _, by decide, rfl⟩
/-- NextFetchStopsOutside: a target below program memory, and the first address above the last fetchable one. -/
theorem witness_NextFetchStops : (∃ t : State, t.run = .running ∧ (t.reg .pc).toNat < t.sizing.loadBase.toNat) ∧
    (∃ t : State, t.run = .running ∧
      (t.sizing.loadBase.toNat : Int) + t.sizing.progMemSize - 2 < (t.reg .pc).toNat) :=
  ⟨⟨withRegsSet [(.pc, 0x03FF)], by decide⟩, ⟨withRegsSet [(.pc, 0x07FF)], by decide⟩⟩
/-- BEQ and BZ, taken and not taken. -/
theorem witness_Branches : (∃ s : State, (s.reg .sr).getLsbD 1 = true) ∧ (∃ s : State, (s.reg .sr).getLsbD 1 = false) ∧
    (∃ s : State, (s.reg .sr).getLsbD 0 = true) ∧ (∃ s : State, (s.reg .sr).getLsbD 0 = false) :=
  ⟨⟨withRegsSet [(.sr, 2)], by decide⟩, ⟨withRegsSet [(.sr, 1)], by decide⟩, ⟨withRegsSet [(.sr, 1)], by decide⟩,
    ⟨withRegsSet [(.sr, 2)], by decide⟩⟩
theorem witness_TakenBranch : ∃ (i : Instr) (s t : State), s.sizing = Config.reference ∧ s.run = .running ∧
    i.takenIn s = true ∧ exec i s = .next t :=
  ⟨.beq 255, withRegsSet [(.sr, 2)], _, rfl, rfl, by decide, rfl⟩
theorem witness_RegistersChange : ∃ (i : Instr) (s t : State), exec i s = .next t ∧ t.reg .a0 ≠ s.reg .a0 :=
  ⟨.movi 0 1, State.reset, _, rfl, by decide⟩
theorem witness_UnnamedRegister : ∃ i : Instr, Reg.lr.index ∉ i.namedIndices ∧ i.usesImplicitly .lr = false :=
  ⟨.add 0 1, by decide⟩
theorem witness_ZeroFlag_clears : ∃ (i : Instr) (s t : State), exec i s = .next t ∧ s.zFlag = true ∧ t.zFlag = false :=
  ⟨.movi 10 0, withRegsSet [(.sr, 1)], _, rfl, by decide, by decide⟩
theorem witness_ZeroFlag_sets : ∃ (i : Instr) (s t : State), exec i s = .next t ∧ i.destIndex ≠ some Reg.sr.index ∧
    s.zFlag = false ∧ t.zFlag = true :=
  ⟨.add 0 1, State.reset, _, rfl, by decide, by decide, by decide⟩
theorem witness_EqualFlag : ∃ (i : Instr) (s t : State), exec i s = .next t ∧ t.eFlag ≠ s.eFlag :=
  ⟨.cmp 0 0, State.reset, _, rfl, by decide⟩
theorem witness_PcAdvances : ∃ (s t : State) (i : Instr), step s = .next t ∧ s.nextInstr = some i ∧
    i.destIndex ≠ some Reg.pc.index ∧ i.takenIn s.advancePc = false :=
  ⟨State.reset, _, .mov 0 0, rfl, by decide, by decide, by decide⟩
theorem witness_ProgramMemory : ∃ t : State, runSteps 1 State.reset = .next t := ⟨_, rfl⟩
theorem witness_DataMemory : ∃ s t : State, step s = .next t ∧ s.nextStore = some (16, 42) :=
  ⟨(withRegsSet [(.a0, 42), (.a1, 16)]).withFetchWord 16 0x4001, _, rfl, by decide⟩
/-- `st $a0 0`, then `ld $a1 0`, on a machine of four program bytes and one data byte. -/
theorem witness_LoadGivesMostRecentStore : ∃ u : State,
    runSteps 1 (State.launchState ⟨0, 4, 1⟩ (imageOf [.st 0 0, .ld 1 0]) 0 (fun _ => 0) (fun _ => 7)) = .next u ∧
    u.nextInstr = some (.ld Reg.a1.field Reg.a0.addrField) ∧ (u.advancePc.reg .a0).toNat < 1 ∧
    mostRecentStore 1 (State.launchState ⟨0, 4, 1⟩ (imageOf [.st 0 0, .ld 1 0]) 0 (fun _ => 0) (fun _ => 7)) 0 = some 0 :=
  ⟨_, rfl, by decide, by decide, by decide⟩
/-- The DATA_INIT case: `ld $a1 0` as the first instruction, with no store before it. -/
theorem witness_LoadGivesDataInit : ∃ u : State,
    runSteps 0 (State.launchState ⟨0, 2, 1⟩ (imageOf [.ld 1 0]) 0 (fun _ => 0) (fun _ => 7)) = .next u ∧
    u.nextInstr = some (.ld Reg.a1.field Reg.a0.addrField) ∧ (u.advancePc.reg .a0).toNat < 1 ∧
    mostRecentStore 0 (State.launchState ⟨0, 2, 1⟩ (imageOf [.ld 1 0]) 0 (fun _ => 0) (fun _ => 7)) 0 = none :=
  ⟨_, rfl, by decide, by decide, by decide⟩
theorem witness_StepRuns : State.reset.run = .running ∧ State.reset.fetchWord (State.reset.reg .pc) = some 0 ∧
    decode 0 = .instr (.mov 0 0) := by decide
/-- The first and the last address a fetch is in bounds at. -/
theorem witness_FetchIsLittleEndian : State.reset.sizing.loadBase.toNat ≤ (0x0400#16).toNat ∧
    State.reset.sizing.loadBase.toNat ≤ (0x07FE#16).toNat ∧
    ((0x07FE#16).toNat : Int) - State.reset.sizing.loadBase.toNat + 1 ≤ (State.reset.sizing.progMemSize : Int) - 1 := by
  decide
/-- One address below program memory, and the last byte of it. -/
theorem witness_FetchOutOfRange : (∃ s : State, s.run = .running ∧ (s.reg .pc).toNat < s.sizing.loadBase.toNat) ∧
    (∃ s : State, s.run = .running ∧
      (s.sizing.progMemSize : Int) - 1 < ((s.reg .pc).toNat : Int) - s.sizing.loadBase.toNat + 1) :=
  ⟨⟨withRegsSet [(.pc, 0x03FF)], by decide⟩, ⟨withRegsSet [(.pc, 0x07FF)], by decide⟩⟩
theorem witness_IllegalOpcode : 6 ≤ (6 : Nibble).toNat ∧ ∃ s : State, s.run = .running ∧
    s.fetchWord (s.reg .pc) = some (6#4 ++ 0#4 ++ 0#4 ++ 1#4) :=
  ⟨by decide, State.reset.withFetchWord 16 0x6001, by decide⟩
theorem witness_IllegalFunction_alu : 5 ≤ (5 : Nibble).toNat ∧ ∃ s : State, s.run = .running ∧
    s.fetchWord (s.reg .pc) = some (2#4 ++ 5#4 ++ 0#4 ++ 1#4) :=
  ⟨by decide, State.reset.withFetchWord 16 0x2501, by decide⟩
theorem witness_IllegalFunction_branch : 3 ≤ (3 : Nibble).toNat ∧ ∃ s : State, s.run = .running ∧
    s.fetchWord (s.reg .pc) = some (5#4 ++ 3#4 ++ 0#4 ++ 1#4) :=
  ⟨by decide, State.reset.withFetchWord 16 0x5301, by decide⟩
theorem witness_OpcodeTable : ∃ r ∈ opcodeTable, r.matches 0x5232#16 = true ∧ decode 0x5232#16 = .instr (.bz 50) := by decide
theorem witness_EncodeInvertsDecode : decode 0x0F05#16 = .instr (.mov 0 5) ∧ decode 0x5232#16 = .instr (.bz 50) := by decide
theorem witness_PlacedWord : State.reset.fetchInBounds (State.reset.reg .pc) = true := by decide
theorem witness_CycleReports : State.reset.run = .running := rfl
theorem witness_FatalCycle_decode : ∃ s t : State, s.run = .running ∧ step s = .next t ∧ t.run = .fatal (.invalidOpcode 6) :=
  ⟨State.reset.withFetchWord 16 0x6000, _, rfl, rfl, by decide⟩
theorem witness_FatalCycle_fetch : ∃ s t : State, s.run = .running ∧ step s = .next t ∧
    t.run = .fatal (.fetchOutOfRange 0x07FF) :=
  ⟨withRegsSet [(.pc, 0x07FF)], _, rfl, rfl, by decide⟩
/-- The lowest index that does not exist, which stops; and the highest that does, which does not. -/
theorem witness_IndexStops : (∃ (i : Instr) (s t : State), s.run = .running ∧ exec i s = .next t ∧ i.wellFormed = false ∧
      t.run = .fatal (.registerIndexOutOfRange 12)) ∧
    (∃ (i : Instr) (s t : State), s.run = .running ∧ exec i s = .next t ∧ i.wellFormed = true ∧ t.run = .running) :=
  ⟨⟨.ld 0 12, State.reset, _, rfl, rfl, by decide, by decide⟩, ⟨.mov 11 11, State.reset, _, rfl, rfl, by decide, by decide⟩⟩
theorem witness_FatalStop : ∃ s : State, s.run = .fatal (.invalidOpcode 6) := ⟨State.reset.stop (.invalidOpcode 6), rfl⟩
/-- Reset of a stopped and of a running block whose two-byte program memory the image fills, or passes by one byte. -/
theorem witness_Reset : ∃ s u : State, s.run = .fatal (.invalidOpcode 6) ∧ u.run = .running ∧
    ([0x05, 0x00] : List Byte).length ≤ s.sizing.progMemSize ∧ ([0x05, 0x00] : List Byte).length ≤ u.sizing.progMemSize ∧
    s.sizing.progMemSize < ([0x05, 0x00, 0x07] : List Byte).length :=
  ⟨(State.launchState ⟨0, 2, 1⟩ [] 0 (fun _ => 0) (fun _ => 7)).stop (.invalidOpcode 6),
    State.launchState ⟨0, 2, 1⟩ [] 0 (fun _ => 0) (fun _ => 7), rfl, rfl, by decide, by decide, by decide⟩
/-- An image that fills program memory, with a byte of fill beside one that does not. -/
theorem witness_Launch : ([1, 2] : List Byte).length ≤ (⟨0, 2, 1⟩ : Config.Sizing).progMemSize ∧
    (∃ k, k < ([1, 2] : List Byte).length) ∧
    (([1] : List Byte).length ≤ 1 ∧ 1 < (⟨0, 2, 1⟩ : Config.Sizing).progMemSize) ∧ 0 < (⟨0, 2, 1⟩ : Config.Sizing).dataMemSize :=
  ⟨by decide, ⟨1, by decide⟩, by decide, by decide⟩
theorem witness_LongImage : (⟨0, 2, 1⟩ : Config.Sizing).progMemSize < ([1, 2, 3] : List Byte).length := by decide
theorem witness_LoadedImage : (imageOf [.movi 0 7, .b 0]).length ≤ (⟨0, 4, 0⟩ : Config.Sizing).progMemSize ∧
    (⟨0, 4, 0⟩ : Config.Sizing).loadBase.toNat + (⟨0, 4, 0⟩ : Config.Sizing).progMemSize ≤ 65536 ∧
    ([Instr.movi 0 7, .b 0])[1]? = some (.b 0) := by decide
theorem witness_StepKeepsInvariant : ∃ s t : State, s.Inv ∧ step s = .next t ∧ s.data ≠ t.data :=
  ⟨(withRegsSet [(.a0, 42), (.a1, 1023)]).withFetchWord 16 0x4001, _, by decide, rfl, by decide⟩
theorem witness_LaunchInvariant : ∃ t : State, State.launch ⟨0, 2, 1⟩ [1, 2] 0 (fun _ => 0) (fun _ => 7) = .next t := ⟨_, rfl⟩
theorem witness_CanonicalMemory : ∃ m : Memory, m.wf = true ∧ m ≠ [] := ⟨[(3, 1)], by decide⟩
/-- From an even and from an odd offset. -/
theorem witness_ZeroFill : ∃ s u : State, (s.run = .running ∧ (s.reg .pc).toNat = s.sizing.loadBase.toNat + 0) ∧
    (u.run = .running ∧ (u.reg .pc).toNat = u.sizing.loadBase.toNat + 1023 ∧ 1023 ≤ u.sizing.progMemSize) ∧
    s.sizing.loadBase.toNat + s.sizing.progMemSize < 65536 ∧ u.sizing = s.sizing ∧
    (∀ a, s.prog.read a = 0x00#8) ∧ (∀ a, u.prog.read a = 0x00#8) :=
  ⟨State.reset, withRegsSet [(.pc, 0x07FF)], by decide, by decide, by decide, rfl, fun _ => rfl, fun _ => rfl⟩
theorem witness_RegisterNames : Reg.ofName "t3" = some .t3 ∧ Reg.ofName "t4" = none := by decide

end Sys2Proof.Tests
end

section
/-!
PROOFS of 10_state.md: the memory invariant (R35, R36), the inert registers (R23, R25), the index stops (R24), the startup
values (R38) and the register names (R20, R21).
-/

namespace Sys2Proof.Machine

open Sys2Proof

/-! ### What a step that answers a next state has done -/

/-- The next state of a step is the state stopped at fetch, the state with pc advanced stopped at decode, or the next state
of the decoded instruction (30_encoding.md R96 to R99). -/
theorem step_next_cases {s t : State} (h : step s = .next t) :
    t = s.stop (.fetchOutOfRange (s.reg .pc)) ∨
      (∃ f, t = s.advancePc.stop f) ∨
      (∃ w i, s.fetchWord (s.reg .pc) = some w ∧ decode w = .instr i ∧ exec i s.advancePc = .next t) := by
  rcases step_cases s with ⟨f, _, e⟩ | ⟨_, _, e⟩ | ⟨w, _, hw, e⟩
  · cases e.symm.trans h
  · cases e.symm.trans h
    exact .inl rfl
  · rcases dispatchWord_cases exec w s.advancePc with ⟨i, hi, d⟩ | ⟨op, _, d⟩ | ⟨op, fn, _, d⟩
    · exact .inr (.inr ⟨w, i, hw, hi, d.symm.trans (e.symm.trans h)⟩)
    · cases d.symm.trans (e.symm.trans h)
      exact .inr (.inl ⟨_, rfl⟩)
    · cases d.symm.trans (e.symm.trans h)
      exact .inr (.inl ⟨_, rfl⟩)

/-! ### The memory invariant (10_state.md R35, R36) -/

/-- The invariant reads the two memories and the sizing alone. -/
theorem State.Inv.of_eq {s t : State} (h : s.Inv) (hp : t.prog = s.prog) (hd : t.data = s.data)
    (hz : t.sizing = s.sizing) : t.Inv := by
  rw [State.Inv, hp, hd, hz]
  exact h

/-- A data store in bounds keeps the invariant. -/
theorem State.Inv.setData_write {s : State} {a : Nat} (v : Byte) (h : s.Inv) (ha : a < s.sizing.dataMemSize) :
    (s.setData (s.data.write a v)).Inv := by
  obtain ⟨progWf, dataWf, progWithin, dataWithin⟩ := h
  exact ⟨progWf, Memory.wf_write a v dataWf, progWithin, Memory.within_write v dataWithin ha⟩

theorem exec_keeps_inv {i : Instr} {s t : State} (hs : s.Inv) (h : exec i s = .next t) : t.Inv := by
  rcases exec_cases i s with ⟨f, e⟩ | ⟨d, v, _, _, e⟩ | ⟨d, v, _, _, e⟩ | ⟨b, _, e⟩ | ⟨a, v, ha, e⟩ | ⟨n, e⟩ <;>
    obtain rfl := Host.Outcome.next.inj (e.symm.trans h)
  · exact hs.of_eq rfl rfl rfl
  · exact hs.of_eq rfl rfl rfl
  · exact hs.of_eq (State.noteZero_prog ..) (State.noteZero_data ..) (State.noteZero_sizing ..)
  · exact hs.of_eq rfl rfl rfl
  · exact hs.setData_write v ha
  · exact hs.of_eq (branchIf_prog ..) (branchIf_data ..) (branchIf_sizing ..)

/-- Settles O42: only a store in bounds touches a memory, and a write keeps the canonical form and the size. -/
theorem stepKeepsMemoryInvariant : Obligations.StepKeepsMemoryInvariant := by
  intro s t hs h
  rcases step_next_cases h with rfl | ⟨f, rfl⟩ | ⟨_, _, _, _, he⟩
  · exact hs.of_eq rfl rfl rfl
  · exact hs.of_eq rfl rfl rfl
  · exact exec_keeps_inv (hs.of_eq rfl rfl rfl : s.advancePc.Inv) he

/-! ### Setting a register that an operation does not use commutes with the operation (10_state.md R23, R25) -/

theorem State.setReg_comm {p q : Reg} (s : State) (v w : Word) (h : p ≠ q) :
    (s.setReg q v).setReg p w = (s.setReg p w).setReg q v := by
  refine State.ext_fields (fun r => ?_) rfl rfl rfl rfl
  by_cases hp : r = p
  · simp [hp, h]
  · simp [hp]

theorem State.stop_setReg (s : State) (q : Reg) (v : Word) (f : Fault) :
    (s.setReg q v).stop f = (s.stop f).setReg q v := rfl

theorem State.reg_setReg_of_ne {p q : Reg} (s : State) (v : Word) (h : p ≠ q) : (s.setReg q v).reg p = s.reg p := by
  simp [h]

theorem State.noteZero_setReg {q : Reg} (s : State) (v res : Word) (h : Reg.sr ≠ q) :
    (s.setReg q v).noteZero res = (s.noteZero res).setReg q v := by
  unfold State.noteZero
  split
  · rw [State.reg_setReg_of_ne s v h, State.setReg_comm s v _ h]
  · rfl

theorem State.noteEqual_setReg {q : Reg} (s : State) (v : Word) (e : Bool) (h : Reg.sr ≠ q) :
    (s.setReg q v).noteEqual e = (s.noteEqual e).setReg q v := by
  unfold State.noteEqual
  rw [State.reg_setReg_of_ne s v h, State.setReg_comm s v _ h]

theorem State.zFlag_setReg {q : Reg} (s : State) (v : Word) (h : Reg.sr ≠ q) : (s.setReg q v).zFlag = s.zFlag := by
  unfold State.zFlag
  rw [State.reg_setReg_of_ne s v h]

theorem State.eFlag_setReg {q : Reg} (s : State) (v : Word) (h : Reg.sr ≠ q) : (s.setReg q v).eFlag = s.eFlag := by
  unfold State.eFlag
  rw [State.reg_setReg_of_ne s v h]

theorem branchIf_setReg {q : Reg} (taken : Bool) (n : Byte) (s : State) (v : Word) (h : Reg.pc ≠ q) :
    branchIf taken n (s.setReg q v) = (branchIf taken n s).setReg q v := by
  unfold branchIf
  split
  · exact State.setReg_comm s v _ h
  · rfl

theorem State.dmemWrite_setReg (s : State) (q : Reg) (v a : Word) (b : Byte) :
    (s.setReg q v).dmemWrite a b = (s.dmemWrite a b).map (·.setReg q v) := by
  unfold State.dmemWrite
  rw [State.dataInBounds_setReg]
  split <;> rfl

/-- `check_reg` carries an unnamed register through, if what follows does. -/
theorem withReg_setReg {i : Nat} {q : Reg} {v : Word} {s : State} {k k' : Reg → Result} (hi : q.index ≠ i)
    (hk : ∀ p, p ≠ q → k' p = mapNext (·.setReg q v) (k p)) :
    withReg i (s.setReg q v) k' = mapNext (·.setReg q v) (withReg i s k) := by
  unfold withReg
  cases h : Reg.ofIndex i with
  | some p =>
    refine hk p ?_
    rintro rfl
    exact hi (Reg.ofIndex_eq_some.mp h).symm
  | none => rfl

/-- The two checks carry an unnamed register through, if what follows does. -/
theorem withRegs_setReg {i j : Nat} {q : Reg} {v : Word} {s : State} {k k' : Reg → Reg → Result}
    (hq : q.index ∉ [i, j])
    (hk : ∀ p r, p ≠ q → r ≠ q → k' p r = mapNext (·.setReg q v) (k p r)) :
    withRegs i j (s.setReg q v) k' = mapNext (·.setReg q v) (withRegs i j s k) := by
  simp only [List.mem_cons, List.not_mem_nil, or_false, not_or] at hq
  obtain ⟨hi, hj⟩ := hq
  exact withReg_setReg hi fun p hp => withReg_setReg hj fun r hr => hk p r hp hr

/-- A register used implicitly is another than one that is not. -/
theorem ne_of_usesImplicitly {i : Instr} {p q : Reg} (hp : i.usesImplicitly p = true)
    (hq : i.usesImplicitly q = false) : p ≠ q := by
  rintro rfl
  exact absurd hp (by simp [hq])

/-- ADD, SUB, OR and AND use their two registers and sr alone (41_alu.md R130). -/
theorem aluOp_setReg {x y : Nibble} {q : Reg} (op : Word → Word → Word) (s : State) (v : Word)
    (hq : q.index ∉ [x.toNat, y.toNat]) (hsr : Reg.sr ≠ q) :
    aluOp op x y (s.setReg q v) = mapNext (·.setReg q v) (aluOp op x y s) := by
  refine withRegs_setReg hq fun p r hp hr => ?_
  rw [State.reg_setReg_of_ne s v hp, State.reg_setReg_of_ne s v hr, State.setReg_comm s v _ hp,
    State.noteZero_setReg _ v _ hsr, mapNext]

theorem execLd_setReg {r : Nibble} {n : Byte} {q : Reg} (s : State) (v : Word) (hq : q.index ∉ [r.toNat, n.toNat]) :
    execLd r n (s.setReg q v) = mapNext (·.setReg q v) (execLd r n s) := by
  refine withRegs_setReg hq fun d a hd ha => ?_
  rw [State.reg_setReg_of_ne s v ha, State.dmemRead_setReg]
  cases s.dmemRead (s.reg a) with
  | some b => exact congrArg Host.Outcome.next (State.setReg_comm s v _ hd)
  | none => rfl

theorem execSt_setReg {r : Nibble} {n : Byte} {q : Reg} (s : State) (v : Word) (hq : q.index ∉ [r.toNat, n.toNat]) :
    execSt r n (s.setReg q v) = mapNext (·.setReg q v) (execSt r n s) := by
  refine withRegs_setReg hq fun d a hd ha => ?_
  rw [State.reg_setReg_of_ne s v ha, State.reg_setReg_of_ne s v hd, State.dmemWrite_setReg]
  cases s.dmemWrite (s.reg a) (lowByte (s.reg d)) <;> rfl

/-- Settles O16: each operation an instruction is made of commutes with setting a register it does not use. -/
theorem unnamedRegisterIsInert : Obligations.UnnamedRegisterIsInert := by
  intro i s q v hq hu
  cases i with
  | mov x y =>
    refine withRegs_setReg hq fun d r hd hr => ?_
    rw [State.reg_setReg_of_ne s v hr, State.setReg_comm s v _ hd, mapNext]
  | movi r n =>
    refine withReg_setReg (List.ne_of_not_mem_cons hq) fun d hd => ?_
    rw [State.setReg_comm s v _ hd, mapNext]
  | add x y | sub x y | or x y | and x y => exact aluOp_setReg _ s v hq (ne_of_usesImplicitly rfl hu)
  | cmp x y =>
    have hsr : Reg.sr ≠ q := ne_of_usesImplicitly rfl hu
    refine withRegs_setReg hq fun p r hp hr => ?_
    rw [State.reg_setReg_of_ne s v hp, State.reg_setReg_of_ne s v hr, State.noteEqual_setReg s v _ hsr, mapNext]
  | ld r n => exact execLd_setReg s v hq
  | st r n => exact execSt_setReg s v hq
  | b n =>
    have hpc : Reg.pc ≠ q := ne_of_usesImplicitly rfl hu
    exact congrArg Host.Outcome.next (branchIf_setReg true n s v hpc)
  | beq n =>
    have hpc : Reg.pc ≠ q := ne_of_usesImplicitly rfl hu
    have hsr : Reg.sr ≠ q := ne_of_usesImplicitly rfl hu
    refine congrArg Host.Outcome.next ?_
    rw [State.eFlag_setReg s v hsr, branchIf_setReg _ n s v hpc]
  | bz n =>
    have hpc : Reg.pc ≠ q := ne_of_usesImplicitly rfl hu
    have hsr : Reg.sr ≠ q := ne_of_usesImplicitly rfl hu
    refine congrArg Host.Outcome.next ?_
    rw [State.zFlag_setReg s v hsr, branchIf_setReg _ n s v hpc]

/-! ### Index stops (10_state.md R24) -/

@[simp] theorem validIndex_index (r : Reg) : validIndex r.index = true := by
  simpa [validIndex] using Nat.le_of_lt_succ r.index_lt

/-- `t` is reached from `s` without an index stop: the run state is kept, or is the stop of a data address. -/
def NoIndexStop (s t : State) : Prop := t.run = s.run ∨ ∃ a, t.run = .fatal (.dataAddressOutOfRange a)

theorem NoIndexStop.run_ne {s t : State} (h : NoIndexStop s t) (hs : s.run = .running) (n : Nat) :
    t.run ≠ .fatal (.registerIndexOutOfRange n) := by
  rcases h with h | ⟨a, h⟩ <;> simp [h, hs]

/-- `r`, answered on `s` where the indices `is` are checked, is an index stop on one of them above 11 when there is one, and
a next state without an index stop when there is none. -/
def ChecksIndices (is : List Nat) (s : State) (r : Result) : Prop :=
  (is.all validIndex = true ∧ ∃ t, r = .next t ∧ NoIndexStop s t) ∨
    ∃ n ∈ is, 11 < n ∧ r = .next (s.stop (.registerIndexOutOfRange n))

theorem withReg_checksIndices {i : Nat} {s : State} {k : Reg → Result}
    (hk : ∀ p, ∃ t, k p = .next t ∧ NoIndexStop s t) : ChecksIndices [i] s (withReg i s k) := by
  rcases withReg_cases i s k with ⟨p, rfl, e⟩ | ⟨hi, e⟩
  · exact .inl ⟨by simp, e ▸ hk p⟩
  · exact .inr ⟨i, by simp, hi, e⟩

theorem withRegs_checksIndices {i j : Nat} {s : State} {k : Reg → Reg → Result}
    (hk : ∀ p q, ∃ t, k p q = .next t ∧ NoIndexStop s t) : ChecksIndices [i, j] s (withRegs i j s k) := by
  rcases withRegs_cases i j s k with ⟨p, q, rfl, rfl, e⟩ | ⟨hi, e⟩ | ⟨_, hj, e⟩
  · exact .inl ⟨by simp, e ▸ hk p q⟩
  · exact .inr ⟨i, by simp, hi, e⟩
  · exact .inr ⟨j, by simp, hj, e⟩

theorem aluOp_checksIndices (op : Word → Word → Word) (x y : Nibble) (s : State) :
    ChecksIndices [x.toNat, y.toNat] s (aluOp op x y s) :=
  withRegs_checksIndices fun _ _ => ⟨_, rfl, .inl (by simp)⟩

/-- Every instruction checks the indices it names, and no others (10_state.md R24). -/
theorem exec_checksIndices (i : Instr) (s : State) : ChecksIndices i.namedIndices s (exec i s) := by
  cases i with
  | mov x y => exact withRegs_checksIndices fun _ _ => ⟨_, rfl, .inl rfl⟩
  | movi r n => exact withReg_checksIndices fun _ => ⟨_, rfl, .inl rfl⟩
  | add x y | sub x y | or x y | and x y => exact aluOp_checksIndices _ x y s
  | cmp x y => exact withRegs_checksIndices fun _ _ => ⟨_, rfl, .inl rfl⟩
  | ld r n =>
    refine withRegs_checksIndices fun d a => ?_
    rcases s.dmemRead_cases (s.reg a) with ⟨_, e⟩ | ⟨_, e⟩ <;> rw [e]
    · exact ⟨_, rfl, .inl rfl⟩
    · exact ⟨_, rfl, .inr ⟨_, rfl⟩⟩
  | st r n =>
    refine withRegs_checksIndices fun d a => ?_
    rcases s.dmemWrite_cases (s.reg a) (lowByte (s.reg d)) with ⟨_, e⟩ | ⟨_, e⟩ <;> rw [e]
    · exact ⟨_, rfl, .inl rfl⟩
    · exact ⟨_, rfl, .inr ⟨_, rfl⟩⟩
  | b n | beq n | bz n => exact .inl ⟨rfl, _, rfl, .inl (by simp)⟩

/-- An index above 11 makes the instruction that names it ill-formed. -/
theorem wellFormed_eq_false_of_mem {i : Instr} {n : Nat} (hmem : n ∈ i.namedIndices) (hn : 11 < n) :
    i.wellFormed = false :=
  List.all_eq_false.mpr ⟨n, hmem, by simpa [validIndex] using hn⟩

/-- Settles O34, by the two cases of `exec_checksIndices`. -/
theorem indexStopsExactlyWhenIllFormed : Obligations.IndexStopsExactlyWhenIllFormed := by
  intro i s t hs h
  rcases exec_checksIndices i s with ⟨hwf, u, e, hu⟩ | ⟨m, hmem, hm, e⟩
  · cases e.symm.trans h
    have hne := hu.run_ne hs
    exact ⟨⟨fun hill => Bool.noConfusion (hwf.symm.trans hill), fun ⟨n, hn⟩ => absurd hn (hne n)⟩,
      fun n hn => absurd hn (hne n)⟩
  · cases e.symm.trans h
    refine ⟨⟨fun _ => ⟨m, rfl⟩, fun _ => wellFormed_eq_false_of_mem hmem hm⟩, fun n hn => ?_⟩
    cases hn
    exact ⟨hm, hmem⟩

/-! ### Startup (10_state.md R38) -/

theorem imageByte_of_lt {image : List Byte} {k : Nat} (progFill : Nat → Byte) (h : k < image.length) :
    imageByte image progFill k = image[k] := by
  simp [imageByte, h]

theorem imageByte_of_le {image : List Byte} {k : Nat} (progFill : Nat → Byte) (h : image.length ≤ k) :
    imageByte image progFill k = progFill k := by
  simp [imageByte, h]

/-- Every register but pc and sp starts at zero. -/
theorem launchRegs_get_of_ne (pc sp : Word) {p : Reg} (hpc : p ≠ .pc) (hsp : p ≠ .sp) :
    (launchRegs pc sp).get p = 0#16 := by
  cases p with
  | pc => exact absurd rfl hpc
  | sp => exact absurd rfl hsp
  | _ => rfl

theorem launch_of_fits (z : Config.Sizing) {image : List Byte} (sp0 : Word) (progFill dataInit : Nat → Byte)
    (h : image.length ≤ z.progMemSize) :
    State.launch z image sp0 progFill dataInit = .next (State.launchState z image sp0 progFill dataInit) :=
  if_pos h

theorem launchState_startupValues (z : Config.Sizing) {image : List Byte} (sp0 : Word) (progFill dataInit : Nat → Byte)
    (h : image.length ≤ z.progMemSize) :
    StartupValues z image sp0 progFill dataInit (State.launchState z image sp0 progFill dataInit) := by
  have hsr : (State.launchState z image sp0 progFill dataInit).reg .sr = 0#16 := rfl
  refine ⟨rfl, rfl, fun p hpc hsp => launchRegs_get_of_ne _ _ hpc hsp, by simp [State.zFlag, hsr],
    by simp [State.eFlag, hsr], fun k hk => ?_, fun k hk hz => ?_, fun a ha => ?_, rfl, rfl⟩
  · simp [Memory.read_ofBytes, Nat.lt_of_lt_of_le hk h, imageByte_of_lt progFill hk]
  · simp [Memory.read_ofBytes, hz, imageByte_of_le progFill hk]
  · simp [Memory.read_ofBytes, ha]

/-- Settles O38. -/
theorem launchGivesResetValues : Obligations.LaunchGivesResetValues :=
  fun z _ sp0 progFill dataInit h =>
    ⟨_, launch_of_fits z sp0 progFill dataInit h, launchState_startupValues z sp0 progFill dataInit h⟩

/-- A memory made of its bytes is canonical and within its size, so a launch meets the invariant. -/
theorem launchState_inv (z : Config.Sizing) (image : List Byte) (sp0 : Word) (progFill dataInit : Nat → Byte) :
    (State.launchState z image sp0 progFill dataInit).Inv :=
  ⟨Memory.wf_ofBytes _ _, Memory.wf_ofBytes _ _, Memory.within_ofBytes _ _, Memory.within_ofBytes _ _⟩

theorem launch_eq_next {z : Config.Sizing} {image : List Byte} {sp0 : Word} {progFill dataInit : Nat → Byte} {t : State}
    (h : State.launch z image sp0 progFill dataInit = .next t) :
    image.length ≤ z.progMemSize ∧ t = State.launchState z image sp0 progFill dataInit := by
  unfold State.launch at h
  split at h
  · next hfits => cases h; exact ⟨hfits, rfl⟩
  · cases h

/-- Settles O43: reset lists no byte, and a launch lists each byte of its memories once. -/
theorem launchMeetsMemoryInvariant : Obligations.LaunchMeetsMemoryInvariant := by
  refine ⟨⟨Memory.wf_nil, Memory.wf_nil, Memory.within_nil _, Memory.within_nil _⟩, ?_⟩
  intro z image sp0 progFill dataInit t h
  obtain ⟨_, rfl⟩ := launch_eq_next h
  exact launchState_inv z image sp0 progFill dataInit

/-! ### Register names (10_state.md R20, R21) -/

@[simp] theorem Reg.ofName_name (r : Reg) : Reg.ofName r.name = some r := by cases r <;> decide

theorem Reg.eq_name_of_ofName {n : String} {r : Reg} (h : Reg.ofName n = some r) : n = r.name := by
  have hname := List.find?_some (show Reg.all.find? (fun q => q.name == n) = some r from h)
  exact (eq_of_beq hname).symm

/-- The indices 0 to 11 are registers' indices. -/
theorem Reg.exists_index_eq {i : Nat} (h : i ≤ 11) : ∃ r : Reg, r.index = i := by
  cases hr : Reg.ofIndex i with
  | some r => exact ⟨r, (Reg.ofIndex_eq_some.mp hr).symm⟩
  | none => exact absurd (Reg.ofIndex_eq_none.mp hr) (Nat.not_lt.mpr h)

/-- Settles O46. -/
theorem registerNamesAreOneToOne : Obligations.RegisterNamesAreOneToOne :=
  ⟨fun r => ⟨r.ofName_name, r.ofIndex_index, Nat.le_of_lt_succ r.index_lt⟩, fun _ => Reg.exists_index_eq,
    fun _ _ => Reg.eq_name_of_ofName, rfl, rfl⟩

end Sys2Proof.Machine
end

section
/-!
PROOFS of 20_memory.md: the frame of program memory (R55, R67) and the little-endian fetch (R52, R53).
-/

namespace Sys2Proof.Machine

open Sys2Proof

/-! ### Induction over a run -/

/-- A run of one more step goes through the next state of its first step. -/
theorem runSteps_succ_eq_next {k : Nat} {s t : State} :
    runSteps (k + 1) s = .next t ↔ ∃ u, step s = .next u ∧ runSteps k u = .next t := by
  rw [runSteps]
  cases step s <;> simp

/-- What every step keeps, every run keeps. -/
theorem runSteps_keeps {P : State → Prop} (hstep : ∀ {s t}, P s → step s = .next t → P t) {k : Nat} {s t : State}
    (hs : P s) (h : runSteps k s = .next t) : P t := by
  induction k generalizing s with
  | zero => exact Host.Outcome.next.inj h ▸ hs
  | succ k ih =>
    obtain ⟨u, hu, ht⟩ := runSteps_succ_eq_next.mp h
    exact ih (hstep hs hu) ht

/-! ### Program memory (20_memory.md R55, R67) -/

/-- The two states have the same program memory, at the same place and of the same size: all that a fetch reads. -/
structure SameProgram (s t : State) : Prop where
  prog : t.prog = s.prog
  sizing : t.sizing = s.sizing

theorem SameProgram.trans {s t u : State} (hst : SameProgram s t) (htu : SameProgram t u) : SameProgram s u :=
  ⟨htu.prog.trans hst.prog, htu.sizing.trans hst.sizing⟩

/-- A fetch reads program memory and the sizing alone (20_memory.md R51 to R53). -/
theorem SameProgram.fetchWord_eq {s t : State} (h : SameProgram s t) (a : Word) : t.fetchWord a = s.fetchWord a := by
  cases s; cases t
  obtain ⟨rfl, rfl⟩ := h
  rfl

/-- No instruction writes program memory; ST writes data memory. -/
theorem exec_sameProgram {i : Instr} {s t : State} (h : exec i s = .next t) : SameProgram s t := by
  rcases exec_cases i s with ⟨f, e⟩ | ⟨d, v, _, _, e⟩ | ⟨d, v, _, _, e⟩ | ⟨b, _, e⟩ | ⟨a, v, _, e⟩ | ⟨n, e⟩ <;>
    obtain rfl := Host.Outcome.next.inj (e.symm.trans h)
  · exact ⟨State.stop_prog .., State.stop_sizing ..⟩
  · exact ⟨State.setReg_prog .., State.setReg_sizing ..⟩
  · exact ⟨State.noteZero_prog .., State.noteZero_sizing ..⟩
  · exact ⟨State.noteEqual_prog .., State.noteEqual_sizing ..⟩
  · exact ⟨State.setData_prog .., State.setData_sizing ..⟩
  · exact ⟨branchIf_prog .., branchIf_sizing ..⟩

theorem step_sameProgram {s t : State} (h : step s = .next t) : SameProgram s t := by
  rcases step_next_cases h with rfl | ⟨f, rfl⟩ | ⟨_, _, _, _, he⟩
  · exact ⟨State.stop_prog .., State.stop_sizing ..⟩
  · exact ⟨State.stop_prog .., State.stop_sizing ..⟩
  · have hadvance : SameProgram s s.advancePc := ⟨State.advancePc_prog s, State.advancePc_sizing s⟩
    exact hadvance.trans (exec_sameProgram he)

theorem runSteps_sameProgram {k : Nat} {s t : State} (h : runSteps k s = .next t) : SameProgram s t :=
  runSteps_keeps (P := SameProgram s) (fun hs hu => hs.trans (step_sameProgram hu)) ⟨rfl, rfl⟩ h

/-- Settles O20, by induction over the run from the frame of one step. -/
theorem programMemoryNeverChanges : Obligations.ProgramMemoryNeverChanges := by
  intro k s t h
  have hsame := runSteps_sameProgram h
  exact ⟨hsame.prog, hsame.sizing, hsame.fetchWord_eq⟩

/-! ### Fetch (20_memory.md R52, R53) -/

/-- A fetch in bounds gives the word of the two bytes at its offset. -/
theorem State.fetchWord_eq_some {s : State} {a : Word} (hbase : s.sizing.loadBase.toNat ≤ a.toNat)
    (hend : s.progOffset a + 1 < s.sizing.progMemSize) :
    s.fetchWord a = some (wordOfBytes (s.prog.read (s.progOffset a)) (s.prog.read (s.progOffset a + 1))) := by
  rcases s.fetchWord_cases a with ⟨_, _, e⟩ | ⟨hout, _⟩
  · exact e
  · omega

/-- Settles O24: the bound of R53 in the integers is the model's test of the offset, since the address is not below
LOAD_BASE. -/
theorem fetchIsLittleEndian : Obligations.FetchIsLittleEndian := by
  intro s a hbase hend
  have hoffset : s.progOffset a + 1 < s.sizing.progMemSize := by
    unfold State.progOffset
    omega
  exact ⟨_, State.fetchWord_eq_some hbase hoffset, toNat_wordOfBytes _ _⟩

end Sys2Proof.Machine
end

section
/-!
PROOFS of 30_encoding.md: decoding inverts encoding (R100), and the illegal words stop the block (R90 to R92).
-/

namespace Sys2Proof

/-! ### The opcode map (30_encoding.md R87, R90) -/

theorem decode_of_opcode_zero {w : Word} (h : opcodeOf w = 0#4) : decode w = .instr (.mov (rand1Of w) (rand2Of w)) := by
  simp [decode, h]

theorem decode_of_opcode_one {w : Word} (h : opcodeOf w = 1#4) : decode w = .instr (.movi (funcOf w) (imm8Of w)) := by
  simp [decode, h]

theorem decode_of_opcode_two {w : Word} (h : opcodeOf w = 2#4) : decode w = decodeAlu w := by
  simp [decode, h]

theorem decode_of_opcode_three {w : Word} (h : opcodeOf w = 3#4) : decode w = .instr (.ld (funcOf w) (imm8Of w)) := by
  simp [decode, h]

theorem decode_of_opcode_four {w : Word} (h : opcodeOf w = 4#4) : decode w = .instr (.st (funcOf w) (imm8Of w)) := by
  simp [decode, h]

theorem decode_of_opcode_five {w : Word} (h : opcodeOf w = 5#4) : decode w = decodeBranch w := by
  simp [decode, h]

theorem decode_of_six_le_opcode {w : Word} (h : 6 ≤ (opcodeOf w).toNat) : decode w = .invalidOpcode (opcodeOf w) := by
  unfold decode
  split
  case h_7 => rfl
  all_goals omega

/-! ### The ALU function map (30_encoding.md R88, R91) -/

theorem decodeAlu_of_func_zero {w : Word} (h : funcOf w = 0#4) :
    decodeAlu w = .instr (.add (rand1Of w) (rand2Of w)) := by
  simp [decodeAlu, h]

theorem decodeAlu_of_func_one {w : Word} (h : funcOf w = 1#4) :
    decodeAlu w = .instr (.sub (rand1Of w) (rand2Of w)) := by
  simp [decodeAlu, h]

theorem decodeAlu_of_func_two {w : Word} (h : funcOf w = 2#4) :
    decodeAlu w = .instr (.or (rand1Of w) (rand2Of w)) := by
  simp [decodeAlu, h]

theorem decodeAlu_of_func_three {w : Word} (h : funcOf w = 3#4) :
    decodeAlu w = .instr (.and (rand1Of w) (rand2Of w)) := by
  simp [decodeAlu, h]

theorem decodeAlu_of_func_four {w : Word} (h : funcOf w = 4#4) :
    decodeAlu w = .instr (.cmp (rand1Of w) (rand2Of w)) := by
  simp [decodeAlu, h]

theorem decodeAlu_of_five_le_func {w : Word} (h : 5 ≤ (funcOf w).toNat) :
    decodeAlu w = .invalidFunction (opcodeOf w) (funcOf w) := by
  unfold decodeAlu
  split
  case h_6 => rfl
  all_goals omega

/-! ### The BRANCH function map (30_encoding.md R89, R92) -/

theorem decodeBranch_of_func_zero {w : Word} (h : funcOf w = 0#4) : decodeBranch w = .instr (.b (imm8Of w)) := by
  simp [decodeBranch, h]

theorem decodeBranch_of_func_one {w : Word} (h : funcOf w = 1#4) : decodeBranch w = .instr (.beq (imm8Of w)) := by
  simp [decodeBranch, h]

theorem decodeBranch_of_func_two {w : Word} (h : funcOf w = 2#4) : decodeBranch w = .instr (.bz (imm8Of w)) := by
  simp [decodeBranch, h]

theorem decodeBranch_of_three_le_func {w : Word} (h : 3 ≤ (funcOf w).toNat) :
    decodeBranch w = .invalidFunction (opcodeOf w) (funcOf w) := by
  unfold decodeBranch
  split
  case h_4 => rfl
  all_goals omega

/-! ### Decoding inverts encoding (30_encoding.md R100) -/

/-- The opcode of the assembled word selects the family, its function the instruction, and the two layouts give back the
operands that were put in them. -/
theorem decode_encode (i : Instr) : decode (encode i) = .instr i := by
  cases i with
  | mov a b => simp [encode, decode_of_opcode_zero]
  | movi r n => simp [encode, decode_of_opcode_one]
  | add a b => simp [encode, decode_of_opcode_two, decodeAlu_of_func_zero]
  | sub a b => simp [encode, decode_of_opcode_two, decodeAlu_of_func_one]
  | or a b => simp [encode, decode_of_opcode_two, decodeAlu_of_func_two]
  | and a b => simp [encode, decode_of_opcode_two, decodeAlu_of_func_three]
  | cmp a b => simp [encode, decode_of_opcode_two, decodeAlu_of_func_four]
  | ld r ai => simp [encode, decode_of_opcode_three]
  | st r ai => simp [encode, decode_of_opcode_four]
  | b n => simp [encode, decode_of_opcode_five, decodeBranch_of_func_zero]
  | beq n => simp [encode, decode_of_opcode_five, decodeBranch_of_func_one]
  | bz n => simp [encode, decode_of_opcode_five, decodeBranch_of_func_two]

/-- The opcode and the function of R102 stand in the assembled word. -/
theorem encodesFields (i : Instr) : Laws.EncodesFields.Statement i := by
  cases i with
  | mov a b => exact Laws.EncodesFields.mov a b
  | movi r n => exact Laws.EncodesFields.movi r n
  | add a b => exact Laws.EncodesFields.add a b
  | sub a b => exact Laws.EncodesFields.sub a b
  | or a b => exact Laws.EncodesFields.or a b
  | and a b => exact Laws.EncodesFields.and a b
  | cmp a b => exact Laws.EncodesFields.cmp a b
  | ld r ai => exact Laws.EncodesFields.ld r ai
  | st r ai => exact Laws.EncodesFields.st r ai
  | b n => exact Laws.EncodesFields.b n
  | beq n => exact Laws.EncodesFields.beq n
  | bz n => exact Laws.EncodesFields.bz n

/-- Settles O29: the round trip and the fields of the assembled word, instruction by instruction. -/
theorem decodeInvertsEncode : Obligations.DecodeInvertsEncode :=
  fun i => ⟨decode_encode i, encodesFields i⟩

/-! ### The illegal words (30_encoding.md R90 to R92) -/

theorem decode_illegal_opcode {op : Nibble} (f x y : Nibble) (h : 6 ≤ op.toNat) :
    decode (registerForm op f x y) = .invalidOpcode op := by
  simpa using decode_of_six_le_opcode (w := registerForm op f x y) (by simpa using h)

theorem decode_illegal_function {op f : Nibble} (x y : Nibble)
    (h : (op = 2#4 ∧ 5 ≤ f.toNat) ∨ (op = 5#4 ∧ 3 ≤ f.toNat)) :
    decode (registerForm op f x y) = .invalidFunction op f := by
  rcases h with ⟨rfl, hf⟩ | ⟨rfl, hf⟩
  · rw [decode_of_opcode_two (opcodeOf_registerForm ..), decodeAlu_of_five_le_func (by simpa using hf)]
    simp
  · rw [decode_of_opcode_five (opcodeOf_registerForm ..), decodeBranch_of_three_le_func (by simpa using hf)]
    simp

end Sys2Proof

namespace Sys2Proof.Machine

open Sys2Proof

/-! ### The cycle that fetches an illegal word (30_encoding.md R96 to R98) -/

/-- Stopping changes the run state alone (60_exceptions.md R160). -/
theorem State.stop_stopsUnchanged (s : State) (f : Fault) : StopsUnchanged s (s.stop f) f :=
  ⟨State.stop_run .., State.reg_stop s f, fun _ => rfl, fun _ => rfl, State.stop_sizing ..⟩

/-- A running block that fetches a word dispatches it with pc advanced. -/
theorem step_of_fetchWord {s : State} {w : Word} (hrun : s.run = .running) (hfetch : s.fetchWord (s.reg .pc) = some w) :
    step s = dispatchWord exec w s.advancePc := by
  rcases step_cases s with ⟨_, hr, _⟩ | ⟨_, hn, _⟩ | ⟨v, _, hv, e⟩
  · cases hrun.symm.trans hr
  · cases hfetch.symm.trans hn
  · cases hfetch.symm.trans hv
    exact e

/-- A fetched word whose dispatch raises a fault stops the block, only pc having moved. -/
theorem step_stops_of_dispatch_raises {s : State} {w : Word} {f : Fault} (hrun : s.run = .running)
    (hfetch : s.fetchWord (s.reg .pc) = some w) (hraise : dispatchWord exec w s.advancePc = raise f s.advancePc) :
    ∃ t, step s = .next t ∧ StopsUnchanged s.advancePc t f :=
  ⟨s.advancePc.stop f, (step_of_fetchWord hrun hfetch).trans hraise, s.advancePc.stop_stopsUnchanged f⟩

theorem dispatchWord_of_invalidOpcode {w : Word} {op : Nibble} (execute : Instr → State → Result) (s : State)
    (h : decode w = .invalidOpcode op) : dispatchWord execute w s = raise (.invalidOpcode op) s := by
  rw [dispatchWord, h]

theorem dispatchWord_of_invalidFunction {w : Word} {op fn : Nibble} (execute : Instr → State → Result) (s : State)
    (h : decode w = .invalidFunction op fn) : dispatchWord execute w s = raise (.invalidFunction op fn) s := by
  rw [dispatchWord, h]

/-- Settles O26: no field but the opcode decides the decoding, and its dispatch raises. -/
theorem illegalOpcodeStops : Obligations.IllegalOpcodeStops := by
  intro op f x y hop
  have hdecode := decode_illegal_opcode f x y hop
  exact ⟨hdecode, fun s hrun hfetch =>
    step_stops_of_dispatch_raises hrun hfetch (dispatchWord_of_invalidOpcode exec s.advancePc hdecode)⟩

/-- Settles O27: neither function map has an entry, and the dispatch of the word raises. -/
theorem illegalFunctionStops : Obligations.IllegalFunctionStops := by
  intro op f x y hfunc
  have hdecode := decode_illegal_function x y hfunc
  exact ⟨hdecode, fun s hrun hfetch =>
    step_stops_of_dispatch_raises hrun hfetch (dispatchWord_of_invalidFunction exec s.advancePc hdecode)⟩

end Sys2Proof.Machine
end

section
/-!
PROOFS of 41_alu.md: the bitwise functions of the ALU (R130, R133, R134) and compare (R135).
-/

namespace Sys2Proof.Machine

open Sys2Proof

/-! ### The arms of the bitwise functions and of compare (41_alu.md R133 to R135) -/

theorem exec_or (x y : Nibble) (s : State) : exec (.or x y) s = aluOp (fun a b => a ||| b) x y s := rfl

theorem exec_and (x y : Nibble) (s : State) : exec (.and x y) s = aluOp (fun a b => a &&& b) x y s := rfl

theorem exec_cmp (x y : Nibble) (s : State) :
    exec (.cmp x y) s = withRegs x.toNat y.toNat s fun p q => .next (s.noteEqual (s.reg p == s.reg q)) := rfl

/-! ### The two index checks of the register form (10_state.md R24, 60_exceptions.md R162) -/

theorem withRegs_outOfRange_left {i : Nat} (j : Nat) (s : State) (k : Reg → Reg → Result) (hi : 11 < i) :
    withRegs i j s k = .next (s.stop (.registerIndexOutOfRange i)) :=
  withReg_outOfRange s _ hi

theorem withRegs_outOfRange_right {i j : Nat} (s : State) (k : Reg → Reg → Result) (hi : i ≤ 11) (hj : 11 < j) :
    withRegs i j s k = .next (s.stop (.registerIndexOutOfRange j)) := by
  obtain ⟨p, rfl⟩ := Reg.exists_index_eq hi
  exact (withReg_index p s _).trans (withReg_outOfRange s _ hj)

/-- An instruction that begins with the two checks has the fatal conditions of the register form, whatever it does next. -/
theorem registerFormStops_of_withRegs {mk : Nibble → Nibble → Instr} {k : State → Reg → Reg → Result}
    (hexec : ∀ x y s, exec (mk x y) s = withRegs x.toNat y.toNat s (k s)) : RegisterFormStops mk := by
  refine ⟨fun x y s hx => ?_, fun x y s hx hy => ?_⟩
  · exact ⟨_, (hexec x y s).trans (withRegs_outOfRange_left _ s _ hx), s.stop_stopsUnchanged _⟩
  · exact ⟨_, (hexec x y s).trans (withRegs_outOfRange_right s _ hx hy), s.stop_stopsUnchanged _⟩

/-! ### The effect shared by the functions with a result (41_alu.md R130) -/

theorem aluOp_field (op : Word → Word → Word) (d q : Reg) (s : State) :
    aluOp op d.field q.field s =
      .next ((s.setReg d (op (s.reg d) (s.reg q))).noteZero (op (s.reg d) (s.reg q))) := by
  simp [aluOp]

theorem setReg_noteZero_onlyRegistersChange (s : State) (d : Reg) (v res : Word) :
    OnlyRegistersChange s ((s.setReg d v).noteZero res) := by
  simp [OnlyRegistersChange]

/-- An instruction whose meaning is `aluOp op` has the shared effect for every relation that `op` meets. The value written
to sr before the Z update is the result when sr is the destination, and the old sr otherwise. -/
theorem aluEffect_of_aluOp {mk : Nibble → Nibble → Instr} {op : Word → Word → Word} {rel : Word → Word → Word → Prop}
    (hexec : ∀ x y s, exec (mk x y) s = aluOp op x y s) (hrel : ∀ a b, rel a b (op a b)) : AluEffect mk rel := by
  intro d q s
  refine ⟨_, op (s.reg d) (s.reg q), (s.setReg d (op (s.reg d) (s.reg q))).reg .sr,
    (hexec _ _ s).trans (aluOp_field op d q s), hrel _ _, fun hd => ?_, ?_, ?_, fun p hpd hpsr => ?_,
    setReg_noteZero_onlyRegistersChange s d _ _⟩
  · simp [hd]
  · simp [eq_comm]
  · simp
  · simp [hpd, hpsr]

/-- Settles O5. -/
theorem orWritesBitwiseOr : Obligations.OrWritesBitwiseOr :=
  ⟨⟨fun x y => decode_encode (.or x y), fun _ _ => rfl, registerFormStops_of_withRegs exec_or⟩,
    aluEffect_of_aluOp exec_or fun _ _ => ⟨fun _ => BitVec.getLsbD_or, BitVec.or_eq_zero_iff⟩⟩

/-- Settles O6. -/
theorem andWritesBitwiseAnd : Obligations.AndWritesBitwiseAnd :=
  ⟨⟨fun x y => decode_encode (.and x y), fun _ _ => rfl, registerFormStops_of_withRegs exec_and⟩,
    aluEffect_of_aluOp exec_and fun _ _ _ => BitVec.getLsbD_and⟩

/-! ### Compare (41_alu.md R135) -/

/-- The mask of the Equal flag is bit 1 alone (10_state.md R32). -/
theorem getLsbD_equalMask (i : Nat) : (0x0002#16).getLsbD i = decide (i = 1) := by
  have hmask : 0x0002#16 = BitVec.twoPow 16 1 := rfl
  simp [hmask, eq_comm]

theorem getLsbD_setEqual (w : Word) (i : Nat) : (w ||| 0x0002#16).getLsbD i = if i = 1 then true else w.getLsbD i := by
  rw [BitVec.getLsbD_or, getLsbD_equalMask]
  by_cases hi : i = 1 <;> simp [hi]

theorem getLsbD_clearEqual (w : Word) (i : Nat) :
    (w &&& ~~~0x0002#16).getLsbD i = if i = 1 then false else w.getLsbD i := by
  rw [BitVec.getLsbD_and, BitVec.getLsbD_not, getLsbD_equalMask]
  by_cases hi : i = 1
  · simp [hi]
  · simpa [hi] using fun h : w.getLsbD i = true => BitVec.lt_of_getLsbD h

/-- The E update gives bit 1 of sr and keeps every other bit. -/
theorem State.getLsbD_sr_noteEqual (s : State) (e : Bool) (i : Nat) :
    ((s.noteEqual e).reg .sr).getLsbD i = if i = 1 then e else (s.reg .sr).getLsbD i := by
  rw [State.reg_noteEqual, if_pos rfl]
  cases e with
  | true => exact getLsbD_setEqual _ i
  | false => exact getLsbD_clearEqual _ i

theorem noteEqual_onlyRegistersChange (s : State) (e : Bool) : OnlyRegistersChange s (s.noteEqual e) := by
  simp [OnlyRegistersChange]

theorem exec_cmp_field (p q : Reg) (s : State) :
    exec (.cmp p.field q.field) s = .next (s.noteEqual (s.reg p == s.reg q)) := by
  simp [exec_cmp]

/-- Settles O7: the one write of CMP is the E update, which changes bit 1 of sr alone. -/
theorem cmpWritesOnlyEqualFlag : Obligations.CmpWritesOnlyEqualFlag := by
  refine ⟨⟨fun x y => decode_encode (.cmp x y), fun _ _ => rfl, registerFormStops_of_withRegs exec_cmp⟩,
    fun p q s => ⟨_, exec_cmp_field p q s, ?_, fun i hi => ?_, fun r hr => ?_, noteEqual_onlyRegistersChange s _⟩⟩
  · exact (s.getLsbD_sr_noteEqual _ 1).trans (if_pos rfl)
  · exact (s.getLsbD_sr_noteEqual _ i).trans (if_neg hi)
  · exact (s.reg_noteEqual _ r).trans (if_neg hr)

end Sys2Proof.Machine
end

section
/-!
PROOFS of 30_encoding.md: encoding inverts decoding but for MOV's ignored bits (R93, R100), the opcode table decides decoding
(R111), and the worked examples.
-/

namespace Sys2Proof

/-! ### The fields of a masked word -/

theorem append_fields_and (o f a b o' f' a' b' : Nibble) :
    (o ++ f ++ a ++ b) &&& (o' ++ f' ++ a' ++ b') = (o &&& o') ++ (f &&& f') ++ (a &&& a') ++ (b &&& b') := by
  simp only [BitVec.and_append]

/-- A mask acts on each field of the register form on its own (30_encoding.md R82). -/
theorem registerForm_and (o f a b o' f' a' b' : Nibble) :
    registerForm o f a b &&& registerForm o' f' a' b' = registerForm (o &&& o') (f &&& f') (a &&& a') (b &&& b') :=
  append_fields_and o f a b o' f' a' b'

/-- The mask of R111 that keeps the opcode alone. -/
theorem and_opcodeMask (w : Word) : w &&& 0xF000#16 = registerForm (opcodeOf w) 0#4 0#4 0#4 := by
  have hmask : 0xF000#16 = registerForm (BitVec.allOnes 4) 0#4 0#4 0#4 := rfl
  conv_lhs => rw [← registerForm_fields w, hmask, registerForm_and]
  simp only [BitVec.and_allOnes, BitVec.and_zero]

/-- The mask of R111 that keeps the opcode and the function. -/
theorem and_functionMask (w : Word) : w &&& 0xFF00#16 = registerForm (opcodeOf w) (funcOf w) 0#4 0#4 := by
  have hmask : 0xFF00#16 = registerForm (BitVec.allOnes 4) (BitVec.allOnes 4) 0#4 0#4 := rfl
  conv_lhs => rw [← registerForm_fields w, hmask, registerForm_and]
  simp only [BitVec.and_allOnes, BitVec.and_zero]

/-- The mask that drops bits 11:8, which MOV ignores (R93). -/
theorem and_movMask (w : Word) : w &&& 0xF0FF#16 = registerForm (opcodeOf w) 0#4 (rand1Of w) (rand2Of w) := by
  have hmask : 0xF0FF#16 = registerForm (BitVec.allOnes 4) 0#4 (BitVec.allOnes 4) (BitVec.allOnes 4) := rfl
  conv_lhs => rw [← registerForm_fields w, hmask, registerForm_and]
  simp only [BitVec.and_allOnes, BitVec.and_zero]

/-! ### Encoding inverts decoding (30_encoding.md R93, R100) -/

/-- The six opcodes, and the rest (30_encoding.md R87, R90). -/
theorem opcode_cases (o : Nibble) : o = 0#4 ∨ o = 1#4 ∨ o = 2#4 ∨ o = 3#4 ∨ o = 4#4 ∨ o = 5#4 ∨ 6 ≤ o.toNat := by
  bv_omega

theorem aluFunc_cases (f : Nibble) : f = 0#4 ∨ f = 1#4 ∨ f = 2#4 ∨ f = 3#4 ∨ f = 4#4 ∨ 5 ≤ f.toNat := by
  bv_omega

theorem branchFunc_cases (f : Nibble) : f = 0#4 ∨ f = 1#4 ∨ f = 2#4 ∨ 3 ≤ f.toNat := by
  bv_omega

theorem registerForm_eq {w : Word} {o f : Nibble} (ho : opcodeOf w = o) (hf : funcOf w = f) :
    registerForm o f (rand1Of w) (rand2Of w) = w := by
  subst ho hf
  exact registerForm_fields w

theorem immediateForm_eq {w : Word} {o f : Nibble} (ho : opcodeOf w = o) (hf : funcOf w = f) :
    immediateForm o f (imm8Of w) = w := by
  subst ho hf
  exact immediateForm_fields w

theorem encode_of_decodeAlu {w : Word} {i : Instr} (ho : opcodeOf w = 2#4) (h : decodeAlu w = .instr i) : encode i = w := by
  rcases aluFunc_cases (funcOf w) with hf | hf | hf | hf | hf | hf
  · cases (decodeAlu_of_func_zero hf).symm.trans h
    exact registerForm_eq ho hf
  · cases (decodeAlu_of_func_one hf).symm.trans h
    exact registerForm_eq ho hf
  · cases (decodeAlu_of_func_two hf).symm.trans h
    exact registerForm_eq ho hf
  · cases (decodeAlu_of_func_three hf).symm.trans h
    exact registerForm_eq ho hf
  · cases (decodeAlu_of_func_four hf).symm.trans h
    exact registerForm_eq ho hf
  · cases (decodeAlu_of_five_le_func hf).symm.trans h

theorem encode_of_decodeBranch {w : Word} {i : Instr} (ho : opcodeOf w = 5#4) (h : decodeBranch w = .instr i) :
    encode i = w := by
  rcases branchFunc_cases (funcOf w) with hf | hf | hf | hf
  · cases (decodeBranch_of_func_zero hf).symm.trans h
    exact immediateForm_eq ho hf
  · cases (decodeBranch_of_func_one hf).symm.trans h
    exact immediateForm_eq ho hf
  · cases (decodeBranch_of_func_two hf).symm.trans h
    exact immediateForm_eq ho hf
  · cases (decodeBranch_of_three_le_func hf).symm.trans h

/-- Settles O30: each opcode and function determines the layout whose fields the word is. -/
theorem encodeInvertsDecode : Obligations.EncodeInvertsDecode := by
  intro w i h
  rcases opcode_cases (opcodeOf w) with ho | ho | ho | ho | ho | ho | ho
  · cases (decode_of_opcode_zero ho).symm.trans h
    rw [if_pos ho, and_movMask, ho, encode]
  · cases (decode_of_opcode_one ho).symm.trans h
    exact (immediateForm_eq ho rfl).trans (by simp [ho])
  · exact (encode_of_decodeAlu ho ((decode_of_opcode_two ho).symm.trans h)).trans (by simp [ho])
  · cases (decode_of_opcode_three ho).symm.trans h
    exact (immediateForm_eq ho rfl).trans (by simp [ho])
  · cases (decode_of_opcode_four ho).symm.trans h
    exact (immediateForm_eq ho rfl).trans (by simp [ho])
  · exact (encode_of_decodeBranch ho ((decode_of_opcode_five ho).symm.trans h)).trans (by simp [ho])
  · cases (decode_of_six_le_opcode ho).symm.trans h

theorem opcodeOf_of_decode {w : Word} {i : Instr} (h : decode w = .instr i) : opcodeOf w = i.opcode := by
  rw [← (encodesFields i).1, encodeInvertsDecode w i h]
  split
  · rw [and_movMask, opcodeOf_registerForm]
  · rfl

/-- Only MOV ignores the function field. -/
theorem funcOf_of_decode {w : Word} {i : Instr} (h : decode w = .instr i) (hi : i.opcode ≠ 0#4) : funcOf w = i.func := by
  rw [← (encodesFields i).2, encodeInvertsDecode w i h, opcodeOf_of_decode h, if_neg hi]

/-! ### The opcode table (30_encoding.md R111) -/

/-- A row that fixes the opcode alone. -/
def opcodeRow (mnemonic : String) (o : Nibble) : OpcodeRow := ⟨mnemonic, 0xF000#16, registerForm o 0#4 0#4 0#4⟩

/-- A row that fixes the opcode and the function. -/
def functionRow (mnemonic : String) (o f : Nibble) : OpcodeRow := ⟨mnemonic, 0xFF00#16, registerForm o f 0#4 0#4⟩

theorem opcodeRow_matches {mnemonic : String} {o : Nibble} {w : Word} :
    (opcodeRow mnemonic o).matches w = true ↔ opcodeOf w = o := by
  simp only [OpcodeRow.matches, opcodeRow, and_opcodeMask, beq_iff_eq]
  exact ⟨fun h => by simpa using congrArg opcodeOf h, fun h => by rw [h]⟩

theorem functionRow_matches {mnemonic : String} {o f : Nibble} {w : Word} :
    (functionRow mnemonic o f).matches w = true ↔ opcodeOf w = o ∧ funcOf w = f := by
  simp only [OpcodeRow.matches, functionRow, and_functionMask, beq_iff_eq]
  exact ⟨fun h => ⟨by simpa using congrArg opcodeOf h, by simpa using congrArg funcOf h⟩, fun ⟨ho, hf⟩ => by rw [ho, hf]⟩

theorem opcodeTable_eq : opcodeTable =
    [opcodeRow "MOV" 0#4, opcodeRow "MOVI" 1#4, functionRow "ADD" 2#4 0#4, functionRow "SUB" 2#4 1#4,
      functionRow "OR" 2#4 2#4, functionRow "AND" 2#4 3#4, functionRow "CMP" 2#4 4#4, opcodeRow "LD" 3#4,
      opcodeRow "ST" 4#4, functionRow "B" 5#4 0#4, functionRow "BEQ" 5#4 1#4, functionRow "BZ" 5#4 2#4] := rfl

/-- The row of an instruction: the function is fixed for the opcodes 2 and 5 alone. -/
def Instr.row (i : Instr) : OpcodeRow :=
  if i.opcode = 2#4 ∨ i.opcode = 5#4 then functionRow i.mnemonic i.opcode i.func else opcodeRow i.mnemonic i.opcode

theorem Instr.row_mnemonic (i : Instr) : i.row.mnemonic = i.mnemonic := by
  unfold Instr.row
  split <;> rfl

theorem Instr.row_mem_opcodeTable (i : Instr) : i.row ∈ opcodeTable := by
  rw [opcodeTable_eq]
  cases i <;> simp [Instr.row, Instr.opcode, Instr.func, Instr.mnemonic]

/-- A decoded word agrees with its instruction in the fields the instruction's row fixes. -/
theorem row_matches_of_decode {w : Word} {i : Instr} (h : decode w = .instr i) : i.row.matches w = true := by
  unfold Instr.row
  split
  · next hi =>
    have hne : i.opcode ≠ 0#4 := by rcases hi with hi | hi <;> simp [hi]
    exact functionRow_matches.mpr ⟨opcodeOf_of_decode h, funcOf_of_decode h hne⟩
  · exact opcodeRow_matches.mpr (opcodeOf_of_decode h)

/-- A word that a row of the table matches decodes to an instruction of that row. -/
theorem decode_of_row_matches {r : OpcodeRow} {w : Word} (hr : r ∈ opcodeTable) (h : r.matches w = true) :
    ∃ i, decode w = .instr i ∧ i.row = r := by
  simp only [opcodeTable_eq, List.mem_cons, List.not_mem_nil, or_false] at hr
  rcases hr with rfl | rfl | rfl | rfl | rfl | rfl | rfl | rfl | rfl | rfl | rfl | rfl <;>
    simp only [opcodeRow_matches, functionRow_matches] at h
  · exact ⟨_, decode_of_opcode_zero h, rfl⟩
  · exact ⟨_, decode_of_opcode_one h, rfl⟩
  · exact ⟨_, (decode_of_opcode_two h.1).trans (decodeAlu_of_func_zero h.2), rfl⟩
  · exact ⟨_, (decode_of_opcode_two h.1).trans (decodeAlu_of_func_one h.2), rfl⟩
  · exact ⟨_, (decode_of_opcode_two h.1).trans (decodeAlu_of_func_two h.2), rfl⟩
  · exact ⟨_, (decode_of_opcode_two h.1).trans (decodeAlu_of_func_three h.2), rfl⟩
  · exact ⟨_, (decode_of_opcode_two h.1).trans (decodeAlu_of_func_four h.2), rfl⟩
  · exact ⟨_, decode_of_opcode_three h, rfl⟩
  · exact ⟨_, decode_of_opcode_four h, rfl⟩
  · exact ⟨_, (decode_of_opcode_five h.1).trans (decodeBranch_of_func_zero h.2), rfl⟩
  · exact ⟨_, (decode_of_opcode_five h.1).trans (decodeBranch_of_func_one h.2), rfl⟩
  · exact ⟨_, (decode_of_opcode_five h.1).trans (decodeBranch_of_func_two h.2), rfl⟩

/-- Settles O28: a row that matches is the row of the one instruction the word decodes to. -/
theorem opcodeTableDecidesDecoding : Obligations.OpcodeTableDecidesDecoding := by
  refine fun w => ⟨fun r hr q hq hrw hqw => ?_, fun i hi => ?_, fun r hr hrw => ?_⟩
  · obtain ⟨i, hi, rfl⟩ := decode_of_row_matches hr hrw
    obtain ⟨j, hj, rfl⟩ := decode_of_row_matches hq hqw
    exact congrArg Instr.row (Decoded.instr.inj (hi.symm.trans hj))
  · exact ⟨i.row, i.row_mem_opcodeTable, row_matches_of_decode hi, i.row_mnemonic⟩
  · obtain ⟨i, hi, rfl⟩ := decode_of_row_matches hr hrw
    exact ⟨i, hi, i.row_mnemonic.symm⟩

/-- Settles O31: ten closed words, each decoded by evaluation. -/
theorem writtenWordsDecode : Obligations.WrittenWordsDecode := by
  unfold Obligations.WrittenWordsDecode
  decide

end Sys2Proof
end

section
/-!
PROOFS of the moves (40_mov.md), ADD and SUB (41_alu.md R131, R132), and LD and ST (42_load_store.md).
-/

namespace Sys2Proof.Machine

open Sys2Proof

/-! ### The arms of the moves, of ADD and SUB, and of LD and ST -/

theorem exec_mov (x y : Nibble) (s : State) :
    exec (.mov x y) s = withRegs x.toNat y.toNat s fun d q => .next (s.setReg d (s.reg q)) := rfl

theorem exec_movi (r : Nibble) (n : Byte) (s : State) :
    exec (.movi r n) s = withReg r.toNat s fun d => .next (s.setReg d (zext16 n)) := rfl

theorem exec_add (x y : Nibble) (s : State) : exec (.add x y) s = aluOp (fun a b => a + b) x y s := rfl

theorem exec_sub (x y : Nibble) (s : State) : exec (.sub x y) s = aluOp (fun a b => a - b) x y s := rfl

theorem exec_ld (r : Nibble) (ai : Byte) (s : State) : exec (.ld r ai) s = execLd r ai s := rfl

theorem exec_st (r : Nibble) (ai : Byte) (s : State) : exec (.st r ai) s = execSt r ai s := rfl

/-! ### The word, the written form and the effect of the moves -/

@[simp] theorem toNat_zext16 (b : Byte) : (zext16 b).toNat = b.toNat := by
  have := b.isLt
  simp only [zext16, BitVec.toNat_setWidth]
  omega

/-- Every immediate can be written as its number (30_encoding.md R104). -/
@[simp] theorem imm8OfNat_toNat (n : Byte) : imm8OfNat n.toNat = some n := by
  have hle : n.toNat ≤ 255 := Nat.le_of_lt_succ n.isLt
  rw [imm8OfNat, if_pos hle, BitVec.ofNat_toNat, BitVec.setWidth_eq]

theorem decode_movForm (func x y : Nibble) : decode (registerForm 0#4 func x y) = .instr (.mov x y) := by
  rw [decode_of_opcode_zero (opcodeOf_registerForm ..), rand1Of_registerForm, rand2Of_registerForm]

/-- A register write is the one change of a state. -/
theorem State.setReg_writesOnly (s : State) (d : Reg) (v : Word) : WritesOnly s (s.setReg d v) d v :=
  ⟨by simp, fun _ hp => by simp [hp], fun _ => rfl, fun _ => rfl, rfl, rfl⟩

theorem exec_mov_field (d q : Reg) (s : State) : exec (.mov d.field q.field) s = .next (s.setReg d (s.reg q)) := by
  simp [exec_mov]

theorem exec_movi_field (r : Reg) (n : Byte) (s : State) : exec (.movi r.field n) s = .next (s.setReg r (zext16 n)) := by
  simp [exec_movi]

/-- Settles O1. -/
theorem movCopiesOneRegister : Obligations.MovCopiesOneRegister :=
  ⟨decode_movForm, fun _ _ => rfl, fun d q s => ⟨_, exec_mov_field d q s, s.setReg_writesOnly d _⟩,
    registerFormStops_of_withRegs exec_mov⟩

/-- Settles O2. -/
theorem moviWritesZeroExtendedImmediate : Obligations.MoviWritesZeroExtendedImmediate :=
  ⟨fun r n => decode_encode (.movi r n), fun r n => by simp [assemble],
    fun r n s => ⟨_, zext16 n, exec_movi_field r n s, toNat_zext16 n, s.setReg_writesOnly r _⟩,
    fun r n s hr => ⟨_, (exec_movi r n s).trans (withReg_outOfRange s _ hr), s.stop_stopsUnchanged _⟩⟩

/-! ### ADD and SUB (41_alu.md R131, R132) -/

/-- Word subtraction is the difference of the integers modulo 2^16 (41_alu.md R132, decision D5). -/
theorem toNat_sub_emod (a b : Word) : ((a - b).toNat : Int) = ((a.toNat : Int) - (b.toNat : Int)) % 65536 := by
  have := a.isLt
  have := b.isLt
  rw [BitVec.toNat_sub]
  omega

/-- Settles O3. -/
theorem addWritesSumModulo : Obligations.AddWritesSumModulo :=
  ⟨⟨fun x y => decode_encode (.add x y), fun _ _ => rfl, registerFormStops_of_withRegs exec_add⟩,
    aluEffect_of_aluOp exec_add fun a b => BitVec.toNat_add a b⟩

/-- Settles O4. -/
theorem subWritesDifferenceModulo : Obligations.SubWritesDifferenceModulo :=
  ⟨⟨fun x y => decode_encode (.sub x y), fun _ _ => rfl, registerFormStops_of_withRegs exec_sub⟩,
    aluEffect_of_aluOp exec_sub toNat_sub_emod⟩

/-! ### Load and store (42_load_store.md) -/

theorem State.dmemRead_of_lt {s : State} {a : Word} (h : a.toNat < s.sizing.dataMemSize) :
    s.dmemRead a = some (s.data.read a.toNat) := by
  simp [State.dmemRead, State.dataInBounds, h]

theorem State.dmemRead_of_le {s : State} {a : Word} (h : s.sizing.dataMemSize ≤ a.toNat) : s.dmemRead a = none := by
  simp [State.dmemRead, State.dataInBounds, h]

theorem State.dmemWrite_of_lt {s : State} {a : Word} (v : Byte) (h : a.toNat < s.sizing.dataMemSize) :
    s.dmemWrite a v = some (s.setData (s.data.write a.toNat v)) := by
  simp [State.dmemWrite, State.dataInBounds, h]

theorem State.dmemWrite_of_le {s : State} {a : Word} (v : Byte) (h : s.sizing.dataMemSize ≤ a.toNat) :
    s.dmemWrite a v = none := by
  simp [State.dmemWrite, State.dataInBounds, h]

theorem exec_ld_inBounds (d : Reg) {a : Reg} {s : State} (h : (s.reg a).toNat < s.sizing.dataMemSize) :
    exec (.ld d.field a.addrField) s = .next (s.setReg d (zext16 (s.data.read (s.reg a).toNat))) := by
  simp [exec_ld, execLd, State.dmemRead_of_lt h]

theorem exec_ld_outOfBounds (d : Reg) {a : Reg} {s : State} (h : s.sizing.dataMemSize ≤ (s.reg a).toNat) :
    exec (.ld d.field a.addrField) s = .next (s.stop (.dataAddressOutOfRange (s.reg a))) := by
  simp [exec_ld, execLd, State.dmemRead_of_le h, raise]

theorem exec_st_inBounds (v : Reg) {a : Reg} {s : State} (h : (s.reg a).toNat < s.sizing.dataMemSize) :
    exec (.st v.field a.addrField) s = .next (s.setData (s.data.write (s.reg a).toNat (lowByte (s.reg v)))) := by
  simp [exec_st, execSt, State.dmemWrite_of_lt _ h]

theorem exec_st_outOfBounds (v : Reg) {a : Reg} {s : State} (h : s.sizing.dataMemSize ≤ (s.reg a).toNat) :
    exec (.st v.field a.addrField) s = .next (s.stop (.dataAddressOutOfRange (s.reg a))) := by
  simp [exec_st, execSt, State.dmemWrite_of_le _ h, raise]

theorem exec_ld_badRegister {r : Nibble} (ai : Byte) (s : State) (h : 11 < r.toNat) :
    exec (.ld r ai) s = .next (s.stop (.registerIndexOutOfRange r.toNat)) :=
  withRegs_outOfRange_left ai.toNat s _ h

theorem exec_ld_badAddressRegister {r : Nibble} {ai : Byte} (s : State) (hr : r.toNat ≤ 11) (h : 11 < ai.toNat) :
    exec (.ld r ai) s = .next (s.stop (.registerIndexOutOfRange ai.toNat)) :=
  withRegs_outOfRange_right s _ hr h

theorem exec_st_badRegister {r : Nibble} (ai : Byte) (s : State) (h : 11 < r.toNat) :
    exec (.st r ai) s = .next (s.stop (.registerIndexOutOfRange r.toNat)) :=
  withRegs_outOfRange_left ai.toNat s _ h

theorem exec_st_badAddressRegister {r : Nibble} {ai : Byte} (s : State) (hr : r.toNat ≤ 11) (h : 11 < ai.toNat) :
    exec (.st r ai) s = .next (s.stop (.registerIndexOutOfRange ai.toNat)) :=
  withRegs_outOfRange_right s _ hr h

/-- Settles O8. -/
theorem loadReadsOneDataByte : Obligations.LoadReadsOneDataByte :=
  ⟨fun r n => decode_encode (.ld r n), fun r n => by simp [assemble],
    fun d a s h => ⟨_, _, exec_ld_inBounds d h, toNat_zext16 _, s.setReg_writesOnly d _⟩,
    fun d a s h => ⟨_, exec_ld_outOfBounds d h, s.stop_stopsUnchanged _⟩,
    fun r n s h => ⟨_, exec_ld_badRegister n s h, s.stop_stopsUnchanged _⟩,
    fun r n s hr h => ⟨_, exec_ld_badAddressRegister s hr h, s.stop_stopsUnchanged _⟩⟩

/-- Settles O9. -/
theorem storeWritesOneDataByte : Obligations.StoreWritesOneDataByte :=
  ⟨fun r n => decode_encode (.st r n), fun r n => by simp [assemble],
    fun v a s h => ⟨_, exec_st_inBounds v h, by simp [toNat_lowByte], fun b hb => by simp [hb], fun _ => rfl,
      State.reg_setData s _, rfl, rfl⟩,
    fun v a s h => ⟨_, exec_st_outOfBounds v h, s.stop_stopsUnchanged _⟩,
    fun r n s h => ⟨_, exec_st_badRegister n s h, s.stop_stopsUnchanged _⟩,
    fun r n s hr h => ⟨_, exec_st_badAddressRegister s hr h, s.stop_stopsUnchanged _⟩⟩

/-- Settles O10: a store changes no register, so the load reads the byte at the address just written. -/
theorem storeThenLoadGivesStoredByte : Obligations.StoreThenLoadGivesStoredByte := by
  intro v a d s t hbound h
  obtain rfl := Host.Outcome.next.inj ((exec_st_inBounds v hbound).symm.trans h)
  exact ⟨_, exec_ld_inBounds d hbound, by simp [toNat_lowByte]⟩

end Sys2Proof.Machine
end

section
/-!
PROOFS of the cycle (30_encoding.md R96 to R99), of the fetch bounds (20_memory.md R53) and of the branches (43_branch.md).
-/

namespace Sys2Proof.Machine

open Sys2Proof

/-! ### The cycle that runs an instruction (30_encoding.md R96 to R99) -/

theorem dispatchWord_of_instr {w : Word} {i : Instr} (execute : Instr → State → Result) (s : State)
    (h : decode w = .instr i) : dispatchWord execute w s = execute i s := by
  rw [dispatchWord, h]

theorem step_of_decode {s : State} {w : Word} {i : Instr} (hrun : s.run = .running)
    (hfetch : s.fetchWord (s.reg .pc) = some w) (hdecode : decode w = .instr i) : step s = exec i s.advancePc :=
  (step_of_fetchWord hrun hfetch).trans (dispatchWord_of_instr exec s.advancePc hdecode)

theorem toNat_add_two (w : Word) : (w + 2#16).toNat = (w.toNat + 2) % 65536 := BitVec.toNat_add w 2#16

theorem add_two_eq_ofNat (w : Word) : w + 2#16 = BitVec.ofNat 16 ((w.toNat + 2) % 65536) := by
  apply BitVec.eq_of_toNat_eq
  rw [toNat_add_two, BitVec.toNat_ofNat, Nat.mod_mod]

theorem State.advancePc_writesOnly (s : State) : WritesOnly s s.advancePc .pc (s.reg .pc + 2#16) :=
  s.setReg_writesOnly .pc _

/-- Settles O23. -/
theorem stepRunsDecodedInstruction : Obligations.StepRunsDecodedInstruction := by
  intro s w i hrun hfetch hdecode
  exact ⟨step_of_decode hrun hfetch hdecode, add_two_eq_ofNat _ ▸ s.advancePc_writesOnly⟩

/-! ### The cycle that fetches outside program memory (20_memory.md R53) -/

theorem State.fetchWord_eq_none {s : State} {a : Word}
    (h : a.toNat < s.sizing.loadBase.toNat ∨ s.sizing.progMemSize ≤ s.progOffset a + 1) : s.fetchWord a = none := by
  rcases s.fetchWord_cases a with ⟨hbase, hend, _⟩ | ⟨_, e⟩
  · omega
  · exact e

theorem step_of_fetchWord_none {s : State} (hrun : s.run = .running) (hfetch : s.fetchWord (s.reg .pc) = none) :
    step s = .next (s.stop (.fetchOutOfRange (s.reg .pc))) := by
  rcases step_cases s with ⟨_, hr, _⟩ | ⟨_, _, e⟩ | ⟨_, _, hw, _⟩
  · cases hrun.symm.trans hr
  · exact e
  · cases hfetch.symm.trans hw

/-- Settles O25: the bound in the integers is the model's test of the offset. -/
theorem fetchOutOfRangeStops : Obligations.FetchOutOfRangeStops := by
  intro s hrun hout
  have hfetch : s.fetchWord (s.reg .pc) = none := by
    apply State.fetchWord_eq_none
    unfold State.progOffset
    omega
  exact ⟨_, step_of_fetchWord_none hrun hfetch, s.stop_stopsUnchanged _⟩

/-! ### Branches (43_branch.md) -/

theorem exec_b (n : Byte) (s : State) : exec (.b n) s = .next (branchIf true n s) := rfl

theorem exec_beq (n : Byte) (s : State) : exec (.beq n) s = .next (branchIf s.eFlag n s) := rfl

theorem exec_bz (n : Byte) (s : State) : exec (.bz n) s = .next (branchIf s.zFlag n s) := rfl

theorem branchIf_of_taken {taken : Bool} (n : Byte) (s : State) (h : taken = true) :
    branchIf taken n s = s.setReg .pc (zext16 n) := if_pos h

theorem branchIf_of_not_taken {taken : Bool} (n : Byte) (s : State) (h : taken = false) : branchIf taken n s = s :=
  if_neg (Bool.eq_false_iff.mp h)

theorem nextFetchStopsOutside (t : State) : NextFetchStopsOutside t := by
  intro hrun hout
  exact fetchOutOfRangeStops t hrun (by omega)

/-- A taken branch writes the zero-extended immediate to pc (43_branch.md R150 to R152). -/
theorem exec_of_takenIn {i : Instr} {s : State} (h : i.takenIn s = true) :
    ∃ n, exec i s = .next (s.setReg .pc (zext16 n)) := by
  cases i with
  | b n => exact ⟨n, exec_b n s⟩
  | beq n => exact ⟨n, (exec_beq n s).trans (congrArg _ (branchIf_of_taken n s h))⟩
  | bz n => exact ⟨n, (exec_bz n s).trans (congrArg _ (branchIf_of_taken n s h))⟩
  | _ => cases h

/-- A meaning that writes the zero-extended immediate to pc takes the branch. -/
theorem takesBranch_of_exec {i : Instr} {n : Byte} {s : State} (h : exec i s = .next (s.setReg .pc (zext16 n))) :
    TakesBranch i n s := by
  obtain ⟨hpc, hother, honly⟩ := s.setReg_writesOnly .pc (zext16 n)
  exact ⟨_, h, hpc ▸ toNat_zext16 n, hother, honly, nextFetchStopsOutside _⟩

theorem fallsThrough_of_exec {i : Instr} {s : State} (h : exec i s = .next s) : FallsThrough i s :=
  ⟨s, h, fun _ => rfl, fun _ => rfl, fun _ => rfl, rfl, rfl⟩

/-- Settles O11. -/
theorem branchAlwaysJumps : Obligations.BranchAlwaysJumps :=
  ⟨fun n => decode_encode (.b n), fun n => by simp [assemble], fun n s => takesBranch_of_exec (exec_b n s)⟩

/-- Settles O12. -/
theorem beqJumpsIfEqualFlag : Obligations.BeqJumpsIfEqualFlag :=
  ⟨fun n => decode_encode (.beq n), fun n => by simp [assemble],
    fun n s h => takesBranch_of_exec ((exec_beq n s).trans (congrArg _ (branchIf_of_taken n s h))),
    fun n s h => fallsThrough_of_exec ((exec_beq n s).trans (congrArg _ (branchIf_of_not_taken n s h)))⟩

/-- Settles O13. -/
theorem bzJumpsIfZeroFlag : Obligations.BzJumpsIfZeroFlag :=
  ⟨fun n => decode_encode (.bz n), fun n => by simp [assemble],
    fun n s h => takesBranch_of_exec ((exec_bz n s).trans (congrArg _ (branchIf_of_taken n s h))),
    fun n s h => fallsThrough_of_exec ((exec_bz n s).trans (congrArg _ (branchIf_of_not_taken n s h)))⟩

/-- Settles O14: an immediate is below 256, and the reference LOAD_BASE is 1024. -/
theorem takenBranchEndsRunUnderReferenceSizing : Obligations.TakenBranchEndsRunUnderReferenceSizing := by
  intro i s t hsizing hrun htaken h
  obtain ⟨n, e⟩ := exec_of_takenIn htaken
  obtain rfl := Host.Outcome.next.inj (e.symm.trans h)
  have hpc : ((s.setReg .pc (zext16 n)).reg .pc).toNat < 256 := by simpa using n.isLt
  have hbase : (s.setReg .pc (zext16 n)).sizing.loadBase.toNat = 1024 := by rw [State.setReg_sizing, hsizing]; rfl
  obtain ⟨u, hu, hstops⟩ := fetchOutOfRangeStops (s.setReg .pc (zext16 n)) hrun (.inl (by omega))
  exact ⟨u, hu, hpc, hstops⟩

end Sys2Proof.Machine
end

section
/-!
PROOFS of the rules over every instruction: which registers change (10_state.md R23, R28), the flags (R31, R32), and data memory
along a run (10_state.md R36, 20_memory.md R50, R64).
-/

namespace Sys2Proof.Machine

open Sys2Proof

/-! ### Inversion: what an instruction or a cycle that answers a next state has done -/

theorem exec_next_cases {i : Instr} {s t : State} (h : exec i s = .next t) :
    (∃ f, t = s.stop f) ∨
      (∃ d v, i.destIndex = some d.index ∧ t = s.setReg d v) ∨
      (∃ d v, i.destIndex = some d.index ∧ i.setsZero = true ∧ t = (s.setReg d v).noteZero v) ∨
      (∃ e, i.isCmp = true ∧ t = s.noteEqual e) ∨
      (∃ m, t = s.setData m) ∨
      (∃ n, t = branchIf (i.takenIn s) n s) := by
  rcases exec_cases i s with ⟨f, e⟩ | ⟨d, v, hd, _, e⟩ | ⟨d, v, hd, hz, e⟩ | ⟨b, hc, e⟩ | ⟨a, v, _, e⟩ | ⟨n, e⟩ <;>
    obtain rfl := Host.Outcome.next.inj (e.symm.trans h)
  · exact .inl ⟨f, rfl⟩
  · exact .inr (.inl ⟨d, v, hd, rfl⟩)
  · exact .inr (.inr (.inl ⟨d, v, hd, hz, rfl⟩))
  · exact .inr (.inr (.inr (.inl ⟨b, hc, rfl⟩)))
  · exact .inr (.inr (.inr (.inr (.inl ⟨_, rfl⟩))))
  · exact .inr (.inr (.inr (.inr (.inr ⟨n, rfl⟩))))

/-- The next cycle runs the instruction the fetched word decodes to (30_encoding.md R96). -/
theorem State.nextInstr_of_decode {s : State} {w : Word} {i : Instr} (hrun : s.run = .running)
    (hfetch : s.fetchWord (s.reg .pc) = some w) (hdecode : decode w = .instr i) : s.nextInstr = some i := by
  simp [State.nextInstr, hrun, hfetch, hdecode]

theorem State.nextInstr_eq_some {s : State} {i : Instr} (h : s.nextInstr = some i) :
    s.run = .running ∧ ∃ w, s.fetchWord (s.reg .pc) = some w ∧ decode w = .instr i := by
  unfold State.nextInstr at h
  split at h
  · next w hrun hfetch =>
    split at h
    · next j hdecode => cases h; exact ⟨hrun, w, hfetch, hdecode⟩
    · cases h
  · cases h

theorem step_of_nextInstr {s : State} {i : Instr} (h : s.nextInstr = some i) : step s = exec i s.advancePc := by
  obtain ⟨hrun, _, hfetch, hdecode⟩ := State.nextInstr_eq_some h
  exact step_of_decode hrun hfetch hdecode

/-- A cycle of a running block stops at fetch with pc kept, stops at decode with pc advanced, or runs an instruction. -/
theorem step_next_inversion {s t : State} (h : step s = .next t) :
    (s.nextInstr = none ∧ t = s.stop (.fetchOutOfRange (s.reg .pc))) ∨
      (s.nextInstr = none ∧ ∃ f, (∀ a, f ≠ .fetchOutOfRange a) ∧ t = s.advancePc.stop f) ∨
      (∃ i, s.nextInstr = some i ∧ exec i s.advancePc = .next t) := by
  rcases step_cases s with ⟨_, _, e⟩ | ⟨_, hfetch, e⟩ | ⟨w, hrun, hfetch, e⟩
  · cases e.symm.trans h
  · cases e.symm.trans h
    exact .inl ⟨by simp [State.nextInstr, hfetch], rfl⟩
  · rcases dispatchWord_cases exec w s.advancePc with ⟨i, hi, d⟩ | ⟨op, hi, d⟩ | ⟨op, fn, hi, d⟩
    · exact .inr (.inr ⟨i, State.nextInstr_of_decode hrun hfetch hi, d.symm.trans (e.symm.trans h)⟩)
    · cases d.symm.trans (e.symm.trans h)
      exact .inr (.inl ⟨by simp [State.nextInstr, hrun, hfetch, hi], _, by simp, rfl⟩)
    · cases d.symm.trans (e.symm.trans h)
      exact .inr (.inl ⟨by simp [State.nextInstr, hrun, hfetch, hi], _, by simp, rfl⟩)

/-! ### Which registers change (10_state.md R23, R28) -/

/-- Settles O15. -/
theorem registersChangeOnlyAsTabled : Obligations.RegistersChangeOnlyAsTabled := by
  intro i s t p h hp
  rcases exec_next_cases h with ⟨f, rfl⟩ | ⟨d, v, hd, rfl⟩ | ⟨d, v, hd, hz, rfl⟩ | ⟨e, hc, rfl⟩ | ⟨m, rfl⟩ | ⟨n, rfl⟩
  · exact absurd (s.reg_stop f p) hp
  · have hpd : p = d := by by_contra hne; simp [hne] at hp
    exact .inl (hpd ▸ hd)
  · by_cases hpd : p = d
    · exact .inl (hpd ▸ hd)
    · have hsr : p = .sr := by by_contra hne; simp [hne, hpd] at hp
      exact .inr (.inl ⟨hsr, .inl hz⟩)
  · have hsr : p = .sr := by by_contra hne; simp [hne] at hp
    exact .inr (.inl ⟨hsr, .inr hc⟩)
  · exact absurd (s.reg_setData m p) hp
  · have htaken : i.takenIn s = true ∧ p = .pc := by by_contra hne; simp [hne] at hp
    exact .inr (.inr ⟨htaken.2, htaken.1⟩)

/-- Settles O19: the instruction leaves the incremented pc, since nothing it may change is pc. -/
theorem pcAdvancesByTwoElsewhere : Obligations.PcAdvancesByTwoElsewhere := by
  intro s t i h hi hdest htaken
  have hexec : exec i s.advancePc = .next t := (step_of_nextInstr hi).symm.trans h
  have hpc : t.reg .pc = s.advancePc.reg .pc := by
    by_contra hne
    rcases registersChangeOnlyAsTabled i _ t .pc hexec hne with hd | ⟨hsr, _⟩ | ⟨_, htrue⟩
    · exact hdest hd
    · cases hsr
    · exact Bool.noConfusion (htaken.symm.trans htrue)
  rw [hpc, State.reg_advancePc, if_pos rfl, toNat_add_two]

/-! ### The flags (10_state.md R31, R32) -/

/-- The mask of the Zero flag is bit 0 alone (10_state.md R31). -/
theorem getLsbD_setZero (w : Word) (i : Nat) : (w ||| 0x0001#16).getLsbD i = if i = 0 then true else w.getLsbD i := by
  have hmask : 0x0001#16 = BitVec.twoPow 16 0 := rfl
  rw [BitVec.getLsbD_or, hmask, BitVec.getLsbD_twoPow]
  by_cases hi : i = 0 <;> simp [hi, eq_comm]

/-- The Z update gives bit 0 of sr on a zero result and keeps every other bit. -/
theorem State.getLsbD_sr_noteZero (s : State) (res : Word) (i : Nat) :
    ((s.noteZero res).reg .sr).getLsbD i = if res = 0#16 ∧ i = 0 then true else (s.reg .sr).getLsbD i := by
  by_cases hres : res = 0#16
  · rw [State.reg_noteZero, if_pos ⟨rfl, hres⟩, getLsbD_setZero]
    simp [hres]
  · simp [hres]

theorem State.zFlag_noteZero_of_ne (s : State) {res : Word} (h : res ≠ 0#16) : (s.noteZero res).zFlag = s.zFlag :=
  (s.getLsbD_sr_noteZero res 0).trans (by simp [h, State.zFlag])

theorem State.zFlag_noteZero_zero (s : State) : (s.noteZero 0#16).zFlag = true := s.getLsbD_sr_noteZero 0#16 0

theorem State.eFlag_noteZero (s : State) (res : Word) : (s.noteZero res).eFlag = s.eFlag :=
  (s.getLsbD_sr_noteZero res 1).trans (by simp [State.eFlag])

theorem State.zFlag_noteEqual (s : State) (e : Bool) : (s.noteEqual e).zFlag = s.zFlag := s.getLsbD_sr_noteEqual e 0

theorem sr_branchIf (taken : Bool) (n : Byte) (s : State) : (branchIf taken n s).reg .sr = s.reg .sr := by simp

theorem zFlag_branchIf (taken : Bool) (n : Byte) (s : State) : (branchIf taken n s).zFlag = s.zFlag :=
  congrArg (BitVec.getLsbD · 0) (sr_branchIf taken n s)

theorem eFlag_branchIf (taken : Bool) (n : Byte) (s : State) : (branchIf taken n s).eFlag = s.eFlag :=
  congrArg (BitVec.getLsbD · 1) (sr_branchIf taken n s)

/-- What an instruction can do to Z: nothing, a full write of sr, or set it on a zero result (10_state.md R31). -/
theorem exec_zFlag_cases {i : Instr} {s t : State} (h : exec i s = .next t) :
    t.zFlag = s.zFlag ∨ i.destIndex = some Reg.sr.index ∨
      (t.zFlag = true ∧ i.setsZero = true ∧ ∃ d : Reg, i.destIndex = some d.index ∧ t.reg d = 0#16) := by
  rcases exec_next_cases h with ⟨f, rfl⟩ | ⟨d, v, hd, rfl⟩ | ⟨d, v, hd, hz, rfl⟩ | ⟨e, _, rfl⟩ | ⟨m, rfl⟩ | ⟨n, rfl⟩
  · exact .inl rfl
  · by_cases hsr : Reg.sr = d
    · exact .inr (.inl (hsr ▸ hd))
    · exact .inl (s.zFlag_setReg v hsr)
  · by_cases hsr : Reg.sr = d
    · exact .inr (.inl (hsr ▸ hd))
    · by_cases hv : v = 0#16
      · subst hv
        exact .inr (.inr ⟨State.zFlag_noteZero_zero _, hz, d, hd, by simp [Ne.symm hsr]⟩)
      · exact .inl ((State.zFlag_noteZero_of_ne _ hv).trans (s.zFlag_setReg v hsr))
  · exact .inl (s.zFlag_noteEqual e)
  · exact .inl rfl
  · exact .inl (zFlag_branchIf _ n s)

/-- Settles O17. -/
theorem zeroFlagIsSticky : Obligations.ZeroFlagIsSticky := by
  intro i s t h
  rcases exec_zFlag_cases h with hsame | hsr | ⟨ht, hzero⟩
  · exact ⟨fun hs ht => by simp [hsame, hs] at ht, fun _ hs ht => by simp [hsame, hs] at ht⟩
  · exact ⟨fun _ _ => hsr, fun hne => absurd hsr hne⟩
  · exact ⟨fun _ hclear => Bool.noConfusion (hclear.symm.trans ht), fun _ _ _ => hzero⟩

/-- Settles O18. -/
theorem equalFlagChangesOnlyByCmpOrFullWrite : Obligations.EqualFlagChangesOnlyByCmpOrFullWrite := by
  intro i s t h hne
  rcases exec_next_cases h with ⟨f, rfl⟩ | ⟨d, v, hd, rfl⟩ | ⟨d, v, hd, _, rfl⟩ | ⟨e, hc, rfl⟩ | ⟨m, rfl⟩ | ⟨n, rfl⟩
  · exact absurd rfl hne
  · have hsr : Reg.sr = d := by by_contra hsr; exact hne (s.eFlag_setReg v hsr)
    exact .inr (hsr ▸ hd)
  · have hsr : Reg.sr = d := by
      by_contra hsr
      exact hne ((State.eFlag_noteZero _ v).trans (s.eFlag_setReg v hsr))
    exact .inr (hsr ▸ hd)
  · exact .inl hc
  · exact absurd rfl hne
  · exact absurd (eFlag_branchIf _ n s) hne

/-! ### Data memory (10_state.md R36, 20_memory.md R50, R64) -/

/-- A memory after the store of a cycle, if the cycle stores. -/
def Memory.afterStore (m : Memory) : Option (Nat × Byte) → Memory
  | some (b, v) => m.write b v
  | none => m

theorem Memory.read_afterStore_some (m : Memory) (b a : Nat) (v : Byte) :
    (m.afterStore (some (b, v))).read a = if a = b then v else m.read a := m.read_write b a v

/-- What an instruction stores when it runs on `s`: `State.nextStore` of the cycle that runs it (`nextStore_of_nextInstr`). -/
def State.storeOf (s : State) : Instr → Option (Nat × Byte)
  | .st r ai =>
    match Reg.ofIndex r.toNat, Reg.ofIndex ai.toNat with
    | some v, some a => if s.dataInBounds (s.reg a) then some ((s.reg a).toNat, lowByte (s.reg v)) else none
    | _, _ => none
  | _ => none

theorem State.nextStore_of_nextInstr {s : State} {i : Instr} (h : s.nextInstr = some i) :
    s.nextStore = s.advancePc.storeOf i := by
  rw [State.nextStore, h]
  cases i <;> rfl

theorem State.nextStore_of_nextInstr_none {s : State} (h : s.nextInstr = none) : s.nextStore = none := by
  rw [State.nextStore, h]

theorem withReg_keeps_data {i : Nat} {s t : State} {k : Reg → Result} (hk : ∀ p t, k p = .next t → t.data = s.data)
    (h : withReg i s k = .next t) : t.data = s.data := by
  rcases withReg_cases i s k with ⟨p, _, e⟩ | ⟨_, e⟩
  · exact hk p t (e.symm.trans h)
  · exact Host.Outcome.next.inj (e.symm.trans h) ▸ State.stop_data ..

theorem withRegs_keeps_data {i j : Nat} {s t : State} {k : Reg → Reg → Result}
    (hk : ∀ p q t, k p q = .next t → t.data = s.data) (h : withRegs i j s k = .next t) : t.data = s.data :=
  withReg_keeps_data (fun p _ hp => withReg_keeps_data (hk p) hp) h

theorem aluOp_data {op : Word → Word → Word} {x y : Nibble} {s t : State} (h : aluOp op x y s = .next t) :
    t.data = s.data := by
  refine withRegs_keeps_data (fun d q u e => ?_) h
  obtain rfl := Host.Outcome.next.inj e
  exact (State.noteZero_data ..).trans (State.setReg_data ..)

theorem execLd_data {r : Nibble} {ai : Byte} {s t : State} (h : execLd r ai s = .next t) : t.data = s.data := by
  refine withRegs_keeps_data (fun d a u e => ?_) h
  split at e
  · exact Host.Outcome.next.inj e ▸ State.setReg_data ..
  · exact Host.Outcome.next.inj e ▸ State.stop_data ..

/-- ST leaves data memory as its store does: both registers exist and the address is in bounds, or it stores nothing. -/
theorem execSt_data {r : Nibble} {ai : Byte} {s t : State} (h : execSt r ai s = .next t) :
    t.data = s.data.afterStore (s.storeOf (.st r ai)) := by
  rcases execSt_cases r ai s with ⟨v, a, hr, ha, hb, e⟩ | ⟨v, a, hr, ha, hb, e⟩ | ⟨hr, e⟩ | ⟨hr, ha, e⟩ <;>
    obtain rfl := Host.Outcome.next.inj (e.symm.trans h)
  · simp [State.storeOf, hr, ha, State.dataInBounds, hb, Memory.afterStore]
  · simp [State.storeOf, hr, ha, State.dataInBounds, Nat.not_lt.mpr hb, Memory.afterStore]
  · simp [State.storeOf, Reg.ofIndex_eq_none.mpr hr, Memory.afterStore]
  · obtain ⟨v, hv⟩ := Reg.exists_index_eq hr
    simp [State.storeOf, ← hv, Reg.ofIndex_eq_none.mpr ha, Memory.afterStore]

/-- ST is the only instruction that writes data memory. -/
theorem exec_data {i : Instr} {s t : State} (h : exec i s = .next t) : t.data = s.data.afterStore (s.storeOf i) := by
  cases i with
  | mov x y => exact withRegs_keeps_data (fun _ _ _ e => Host.Outcome.next.inj e ▸ State.setReg_data ..) h
  | movi r n => exact withReg_keeps_data (fun _ _ e => Host.Outcome.next.inj e ▸ State.setReg_data ..) h
  | add x y | sub x y | or x y | and x y => exact aluOp_data h
  | cmp x y => exact withRegs_keeps_data (fun _ _ _ e => Host.Outcome.next.inj e ▸ State.noteEqual_data ..) h
  | ld r n => exact execLd_data h
  | st r n => exact execSt_data h
  | b n | beq n | bz n => exact Host.Outcome.next.inj h ▸ branchIf_data ..

/-- The effect of a cycle on data memory is its store. -/
theorem step_data {s t : State} (h : step s = .next t) : t.data = s.data.afterStore s.nextStore := by
  rcases step_next_inversion h with ⟨hi, rfl⟩ | ⟨hi, f, _, rfl⟩ | ⟨i, hi, he⟩
  · rw [State.nextStore_of_nextInstr_none hi]; rfl
  · rw [State.nextStore_of_nextInstr_none hi]; rfl
  · rw [State.nextStore_of_nextInstr hi]
    exact exec_data he

/-- Settles O21. -/
theorem dataMemoryChangesOnlyByStore : Obligations.DataMemoryChangesOnlyByStore := by
  intro s t h a
  rw [step_data h]
  cases s.nextStore with
  | none => rfl
  | some c => exact Memory.read_afterStore_some ..

/-- One more cycle in front: the most recent store of the later cycles, or else the store of the first. -/
theorem mostRecentStore_succ {k : Nat} {s t : State} (h : step s = .next t) (a : Nat) :
    mostRecentStore (k + 1) s a =
      (mostRecentStore k t a).or (s.nextStore.bind fun c => if c.1 = a then some c.2 else none) := by
  rw [mostRecentStore, h]
  dsimp only
  cases mostRecentStore k t a <;> cases s.nextStore <;> rfl

theorem Memory.read_afterStore (m : Memory) (o : Option (Nat × Byte)) (a : Nat) :
    (m.afterStore o).read a = (o.bind fun c => if c.1 = a then some c.2 else none).getD (m.read a) := by
  cases o with
  | none => rfl
  | some c =>
    rw [Memory.read_afterStore_some]
    by_cases h : a = c.1
    · simp [h]
    · simp [h, Ne.symm h]

/-- After a run, a data byte is that of the most recent store to its address, or the byte the run began with
(20_memory.md R64). -/
theorem data_read_of_runSteps {k : Nat} {s u : State} (h : runSteps k s = .next u) (a : Nat) :
    u.data.read a = (mostRecentStore k s a).getD (s.data.read a) := by
  induction k generalizing s with
  | zero =>
    obtain rfl := Host.Outcome.next.inj h
    rfl
  | succ k ih =>
    obtain ⟨t, hstep, hrun⟩ := runSteps_succ_eq_next.mp h
    rw [ih hrun, mostRecentStore_succ hstep, step_data hstep, Memory.read_afterStore]
    cases mostRecentStore k t a <;> rfl

/-- Settles O22: the load reads the byte that the run left, and a launch holds DATA_INIT's bytes. -/
theorem loadGivesMostRecentStore : Obligations.LoadGivesMostRecentStore := by
  intro z image sp0 progFill dataInit k u d a hrun hi hbound
  have hsizing : u.sizing = z := (runSteps_sameProgram hrun).sizing
  have hinit : (State.launchState z image sp0 progFill dataInit).data.read (u.advancePc.reg a).toNat =
      dataInit (u.advancePc.reg a).toNat := by
    rw [State.launchState_data, Memory.read_ofBytes, if_pos hbound]
  have hload := exec_ld_inBounds d (a := a) (s := u.advancePc) (by rwa [State.advancePc_sizing, hsizing])
  refine ⟨_, (step_of_nextInstr hi).trans hload, ?_⟩
  rw [← hinit, ← data_read_of_runSteps hrun, State.reg_setReg, if_pos rfl, toNat_zext16, State.advancePc_data]

end Sys2Proof.Machine
end

section
/-!
PROOFS of 60_exceptions.md: what a fatal cycle leaves and which condition it reports (R160 to R162), and of the outcomes of a
step and of RESET (log 1; 70_reset_and_hazards.md R180, R182).
-/

namespace Sys2Proof.Machine

open Sys2Proof

/-! ### Every instruction answers a next state -/

theorem exec_next (i : Instr) (s : State) : ∃ t, exec i s = .next t := by
  rcases exec_cases i s with ⟨_, e⟩ | ⟨_, _, _, _, e⟩ | ⟨_, _, _, _, e⟩ | ⟨_, _, e⟩ | ⟨_, _, _, e⟩ | ⟨_, e⟩ <;>
    exact ⟨_, e⟩

theorem step_of_fatal {s : State} {f : Fault} (h : s.run = .fatal f) : step s = .fault f := by
  rw [step, cycle, h]

/-- A running block answers a next state (60_exceptions.md R160). -/
theorem step_next_of_running {s : State} (hrun : s.run = .running) : ∃ t, step s = .next t := by
  rcases step_cases s with ⟨_, hfatal, _⟩ | ⟨_, _, e⟩ | ⟨w, _, _, e⟩
  · cases hrun.symm.trans hfatal
  · exact ⟨_, e⟩
  · rcases dispatchWord_cases exec w s.advancePc with ⟨i, _, d⟩ | ⟨_, _, d⟩ | ⟨_, _, _, d⟩
    · obtain ⟨t, ht⟩ := exec_next i s.advancePc
      exact ⟨t, e.trans (d.trans ht)⟩
    · exact ⟨_, e.trans d⟩
    · exact ⟨_, e.trans d⟩

/-- Settles O37: a stopped block answers its fault, and a running one a next state. -/
theorem runningBlockNeverGetsStuck : Obligations.RunningBlockNeverGetsStuck := by
  intro s i
  refine ⟨exec_next i s, ?_⟩
  cases hrun : s.run with
  | running =>
    obtain ⟨t, ht⟩ := step_next_of_running hrun
    simp [ht]
  | fatal f => simp [step_of_fatal hrun]

/-! ### What a fatal cycle leaves (60_exceptions.md R160, R162) -/

/-- An instruction that stops a running block leaves the state it ran on, and never reports a fetch. -/
theorem exec_fatal {i : Instr} {s t : State} {f : Fault} (hrun : s.run = .running) (h : exec i s = .next t)
    (hf : t.run = .fatal f) : t = s.stop f ∧ ∀ a, f ≠ .fetchOutOfRange a := by
  have hkept : t.run ≠ s.run := fun hsame => by simp [hf, hrun] at hsame
  constructor
  · rcases exec_next_cases h with ⟨g, rfl⟩ | ⟨d, v, _, rfl⟩ | ⟨d, v, _, _, rfl⟩ | ⟨e, _, rfl⟩ | ⟨m, rfl⟩ | ⟨n, rfl⟩
    · obtain rfl := RunState.fatal.inj hf
      rfl
    all_goals exact absurd (by simp) hkept
  · rintro a rfl
    rcases exec_checksIndices i s with ⟨_, u, e, hsame | ⟨b, hdata⟩⟩ | ⟨n, _, _, e⟩ <;>
      obtain rfl := Host.Outcome.next.inj (e.symm.trans h)
    · exact hkept hsame
    · cases hf.symm.trans hdata
    · cases hf

/-- The stop of a cycle: at fetch with nothing changed, or after the increment with pc alone changed. -/
theorem step_fatal {s t : State} {f : Fault} (hrun : s.run = .running) (h : step s = .next t) (hf : t.run = .fatal f) :
    (∃ a, f = .fetchOutOfRange a ∧ t = s.stop f) ∨ ((∀ a, f ≠ .fetchOutOfRange a) ∧ t = s.advancePc.stop f) := by
  rcases step_next_inversion h with ⟨_, rfl⟩ | ⟨_, g, hg, rfl⟩ | ⟨i, _, he⟩
  · obtain rfl := RunState.fatal.inj hf
    exact .inl ⟨_, rfl, rfl⟩
  · obtain rfl := RunState.fatal.inj hf
    exact .inr ⟨hg, rfl⟩
  · obtain ⟨ht, hne⟩ := exec_fatal (s := s.advancePc) hrun he hf
    exact .inr ⟨hne, ht⟩

/-- Settles O35. -/
theorem fatalCycleWritesNothing : Obligations.FatalCycleWritesNothing := by
  intro s t f hrun h hf
  rcases step_fatal hrun h hf with ⟨a, rfl, rfl⟩ | ⟨hne, rfl⟩
  · exact ⟨fun p _ => s.reg_stop _ p, fun _ => rfl, fun _ => rfl, rfl, rfl⟩
  · refine ⟨fun p hp => by simp [hp], fun _ => rfl, fun _ => rfl, rfl, ?_⟩
    cases f with
    | fetchOutOfRange a => exact absurd rfl (hne a)
    | _ => rfl

/-! ### The order of fatal conditions: the word of a decoded instruction (60_exceptions.md R162) -/

theorem eq_encode_of_decode {w : Word} {i : Instr} (h : decode w = .instr i) (hi : i.opcode ≠ 0#4) : w = encode i := by
  rw [encodeInvertsDecode w i h, opcodeOf_of_decode h, if_neg hi]

theorem eq_movForm_of_decode {w : Word} {x y : Nibble} (h : decode w = .instr (.mov x y)) :
    w = registerForm 0#4 (funcOf w) x y := by
  have ho : opcodeOf w = 0#4 := opcodeOf_of_decode h
  cases (decode_of_opcode_zero ho).symm.trans h
  exact (registerForm_eq ho rfl).symm

/-- The indices R162 names by opcode are those the instruction names. -/
theorem checkedIndices_of_decode {w : Word} {i : Instr} (h : decode w = .instr i) : checkedIndices w = i.namedIndices := by
  cases i with
  | mov x y => rw [eq_movForm_of_decode h]; simp [checkedIndices, Instr.namedIndices]
  | _ => rw [eq_encode_of_decode h (by simp [Instr.opcode])]; simp [encode, checkedIndices, Instr.namedIndices]

end Sys2Proof.Machine

namespace Sys2Proof

/-- The index of the address register of LD and ST (42_load_store.md R140, R141). -/
def Instr.addressIndex : Instr → Option Nat
  | .ld _ ai => some ai.toNat
  | .st _ ai => some ai.toNat
  | _ => none

end Sys2Proof

namespace Sys2Proof.Machine

open Sys2Proof

theorem addressIndex_of_decode {w : Word} {i : Instr} (h : decode w = .instr i) :
    i.addressIndex = if opcodeOf w = 3#4 ∨ opcodeOf w = 4#4 then some (imm8Of w).toNat else none := by
  cases i with
  | mov x y => rw [eq_movForm_of_decode h]; simp [Instr.addressIndex]
  | _ => rw [eq_encode_of_decode h (by simp [Instr.opcode])]; simp [encode, Instr.addressIndex]

/-- A word that decodes has a legal opcode and function (30_encoding.md R90 to R92). -/
theorem legal_of_decode {w : Word} {i : Instr} (h : decode w = .instr i) :
    ¬ 6 ≤ (opcodeOf w).toNat ∧ ¬ (opcodeOf w = 2#4 ∧ 5 ≤ (funcOf w).toNat) ∧
      ¬ (opcodeOf w = 5#4 ∧ 3 ≤ (funcOf w).toNat) := by
  refine ⟨fun hop => ?_, fun ⟨hop, hf⟩ => ?_, fun ⟨hop, hf⟩ => ?_⟩
  · cases (decode_of_six_le_opcode hop).symm.trans h
  · cases ((decode_of_opcode_two hop).trans (decodeAlu_of_five_le_func hf)).symm.trans h
  · cases ((decode_of_opcode_five hop).trans (decodeBranch_of_three_le_func hf)).symm.trans h

/-- The fatal condition of LD and ST on an address out of bounds (20_memory.md R57). -/
def State.addressFault (s : State) (i : Instr) : Option Fault :=
  i.addressIndex.bind fun ai =>
    if s.sizing.dataMemSize ≤ (s.regAt ai).toNat then some (.dataAddressOutOfRange (s.regAt ai)) else none

/-- On a decoded word the order of R162 is that of the instruction: its indices, then its address after the increment. -/
theorem State.firstFatal_of_decode {s : State} {w : Word} {i : Instr} (hfetch : s.fetchWord (s.reg .pc) = some w)
    (h : decode w = .instr i) :
    s.firstFatal = (firstBadIndex i.namedIndices).or (s.advancePc.addressFault i) := by
  obtain ⟨hop, halu, hbranch⟩ := legal_of_decode h
  simp only [State.firstFatal, hfetch, if_neg hop, if_neg halu, if_neg hbranch, checkedIndices_of_decode h,
    State.addressFault, addressIndex_of_decode h]
  cases firstBadIndex i.namedIndices with
  | some f => rfl
  | none =>
    by_cases haddr : opcodeOf w = 3#4 ∨ opcodeOf w = 4#4
    · by_cases hbound : s.sizing.dataMemSize ≤ (s.advancePc.regAt (imm8Of w).toNat).toNat <;> simp [haddr, hbound]
    · simp [haddr]

theorem State.firstFatal_of_fetchWord_none {s : State} (h : s.fetchWord (s.reg .pc) = none) :
    s.firstFatal = some (.fetchOutOfRange (s.reg .pc)) := by
  rw [State.firstFatal, h]

/-! ### The order of fatal conditions: the run state an instruction leaves (60_exceptions.md R161, R162) -/

/-- The run state after a cycle that meets `fault`, if any. -/
def RunState.after (r : RunState) (fault : Option Fault) : RunState := (fault.map .fatal).getD r

theorem firstBadIndex_cons_index (r : Reg) (is : List Nat) : firstBadIndex (r.index :: is) = firstBadIndex is := by
  have := r.index_lt
  rw [firstBadIndex, if_neg (by omega)]

theorem firstBadIndex_cons_of_lt {i : Nat} (is : List Nat) (h : 11 < i) :
    firstBadIndex (i :: is) = some (.registerIndexOutOfRange i) := by
  rw [firstBadIndex, if_pos h]

/-- `check_reg` puts its index before the conditions of what follows. -/
theorem withReg_run {i : Nat} {is : List Nat} {fault : Option Fault} {s t : State} {k : Reg → Result}
    (hk : ∀ p t, i = p.index → k p = .next t → t.run = s.run.after ((firstBadIndex is).or fault))
    (h : withReg i s k = .next t) : t.run = s.run.after ((firstBadIndex (i :: is)).or fault) := by
  rcases withReg_cases i s k with ⟨p, rfl, e⟩ | ⟨hi, e⟩
  · rw [firstBadIndex_cons_index]
    exact hk p t rfl (e.symm.trans h)
  · obtain rfl := Host.Outcome.next.inj (e.symm.trans h)
    rw [firstBadIndex_cons_of_lt is hi]
    rfl

theorem withRegs_run {i j : Nat} {fault : Option Fault} {s t : State} {k : Reg → Reg → Result}
    (hk : ∀ p q t, i = p.index → j = q.index → k p q = .next t → t.run = s.run.after fault)
    (h : withRegs i j s k = .next t) : t.run = s.run.after ((firstBadIndex [i, j]).or fault) :=
  withReg_run (fun p _ hi hp => withReg_run (fun q u hj hq => hk p q u hi hj hq) hp) h

theorem aluOp_run {op : Word → Word → Word} {x y : Nibble} {s t : State} (h : aluOp op x y s = .next t) :
    t.run = s.run.after ((firstBadIndex [x.toNat, y.toNat]).or none) := by
  refine withRegs_run (fun d q u _ _ e => ?_) h
  obtain rfl := Host.Outcome.next.inj e
  exact (State.noteZero_run ..).trans (State.setReg_run ..)

theorem State.regAt_index (s : State) (r : Reg) : s.regAt r.index = s.reg r := by
  simp [State.regAt]

theorem State.addressFault_of_lt {s : State} {i : Instr} {a : Reg} (hi : i.addressIndex = some a.index)
    (h : (s.reg a).toNat < s.sizing.dataMemSize) : s.addressFault i = none := by
  simp [State.addressFault, hi, State.regAt_index, Nat.not_le.mpr h]

theorem State.addressFault_of_le {s : State} {i : Instr} {a : Reg} (hi : i.addressIndex = some a.index)
    (h : s.sizing.dataMemSize ≤ (s.reg a).toNat) : s.addressFault i = some (.dataAddressOutOfRange (s.reg a)) := by
  simp [State.addressFault, hi, State.regAt_index, h]

theorem execLd_run {r : Nibble} {ai : Byte} {s t : State} (h : execLd r ai s = .next t) :
    t.run = s.run.after ((firstBadIndex [r.toNat, ai.toNat]).or (s.addressFault (.ld r ai))) := by
  refine withRegs_run (fun d a u _ ha e => ?_) h
  have hi : (Instr.ld r ai).addressIndex = some a.index := congrArg some ha
  rcases s.dmemRead_cases (s.reg a) with ⟨hb, hr⟩ | ⟨hb, hr⟩ <;> rw [hr] at e <;> obtain rfl := Host.Outcome.next.inj e
  · rw [State.addressFault_of_lt hi hb]; rfl
  · rw [State.addressFault_of_le hi hb]; rfl

theorem execSt_run {r : Nibble} {ai : Byte} {s t : State} (h : execSt r ai s = .next t) :
    t.run = s.run.after ((firstBadIndex [r.toNat, ai.toNat]).or (s.addressFault (.st r ai))) := by
  refine withRegs_run (fun v a u _ ha e => ?_) h
  have hi : (Instr.st r ai).addressIndex = some a.index := congrArg some ha
  rcases s.dmemWrite_cases (s.reg a) (lowByte (s.reg v)) with ⟨hb, hr⟩ | ⟨hb, hr⟩ <;> rw [hr] at e <;>
    obtain rfl := Host.Outcome.next.inj e
  · rw [State.addressFault_of_lt hi hb]; rfl
  · rw [State.addressFault_of_le hi hb]; rfl

/-- An instruction reports its first bad index, or else a bad address, or else it leaves the run state. -/
theorem exec_run {i : Instr} {s t : State} (h : exec i s = .next t) :
    t.run = s.run.after ((firstBadIndex i.namedIndices).or (s.addressFault i)) := by
  cases i with
  | mov x y => exact withRegs_run (fun _ _ _ _ _ e => Host.Outcome.next.inj e ▸ State.setReg_run ..) h
  | movi r n => exact withReg_run (fun _ _ _ e => Host.Outcome.next.inj e ▸ State.setReg_run ..) h
  | add x y | sub x y | or x y | and x y => exact aluOp_run h
  | cmp x y => exact withRegs_run (fun _ _ _ _ _ e => Host.Outcome.next.inj e ▸ State.noteEqual_run ..) h
  | ld r n => exact execLd_run h
  | st r n => exact execSt_run h
  | b n | beq n | bz n => exact Host.Outcome.next.inj h ▸ branchIf_run ..

/-- Every legal word decodes to an instruction (30_encoding.md R87 to R89, R98). -/
theorem decode_of_legal {w : Word} (hop : ¬ 6 ≤ (opcodeOf w).toNat) (halu : ¬ (opcodeOf w = 2#4 ∧ 5 ≤ (funcOf w).toNat))
    (hbranch : ¬ (opcodeOf w = 5#4 ∧ 3 ≤ (funcOf w).toNat)) : ∃ i, decode w = .instr i := by
  rcases opcode_cases (opcodeOf w) with ho | ho | ho | ho | ho | ho | ho
  · exact ⟨_, decode_of_opcode_zero ho⟩
  · exact ⟨_, decode_of_opcode_one ho⟩
  · rw [decode_of_opcode_two ho]
    rcases aluFunc_cases (funcOf w) with hf | hf | hf | hf | hf | hf
    · exact ⟨_, decodeAlu_of_func_zero hf⟩
    · exact ⟨_, decodeAlu_of_func_one hf⟩
    · exact ⟨_, decodeAlu_of_func_two hf⟩
    · exact ⟨_, decodeAlu_of_func_three hf⟩
    · exact ⟨_, decodeAlu_of_func_four hf⟩
    · exact absurd ⟨ho, hf⟩ halu
  · exact ⟨_, decode_of_opcode_three ho⟩
  · exact ⟨_, decode_of_opcode_four ho⟩
  · rw [decode_of_opcode_five ho]
    rcases branchFunc_cases (funcOf w) with hf | hf | hf | hf
    · exact ⟨_, decodeBranch_of_func_zero hf⟩
    · exact ⟨_, decodeBranch_of_func_one hf⟩
    · exact ⟨_, decodeBranch_of_func_two hf⟩
    · exact absurd ⟨ho, hf⟩ hbranch
  · exact absurd ho hop

/-- The run state after a cycle of a running block, in the order fetch, opcode, function, execute. -/
theorem step_run {s t : State} (hrun : s.run = .running) (h : step s = .next t) :
    t.run = RunState.running.after s.firstFatal := by
  cases hfetch : s.fetchWord (s.reg .pc) with
  | none =>
    obtain rfl := Host.Outcome.next.inj ((step_of_fetchWord_none hrun hfetch).symm.trans h)
    rw [State.firstFatal_of_fetchWord_none hfetch]
    rfl
  | some w =>
    have hdispatch : dispatchWord exec w s.advancePc = .next t := (step_of_fetchWord hrun hfetch).symm.trans h
    by_cases hop : 6 ≤ (opcodeOf w).toNat
    · rw [dispatchWord_of_invalidOpcode _ _ (decode_of_six_le_opcode hop)] at hdispatch
      obtain rfl := Host.Outcome.next.inj hdispatch
      simp only [State.firstFatal, hfetch, if_pos hop]
      rfl
    by_cases halu : opcodeOf w = 2#4 ∧ 5 ≤ (funcOf w).toNat
    · have hdecode := (decode_of_opcode_two halu.1).trans (decodeAlu_of_five_le_func halu.2)
      rw [dispatchWord_of_invalidFunction _ _ hdecode] at hdispatch
      obtain rfl := Host.Outcome.next.inj hdispatch
      simp only [State.firstFatal, hfetch, if_neg hop, if_pos halu]
      rfl
    by_cases hbranch : opcodeOf w = 5#4 ∧ 3 ≤ (funcOf w).toNat
    · have hdecode := (decode_of_opcode_five hbranch.1).trans (decodeBranch_of_three_le_func hbranch.2)
      rw [dispatchWord_of_invalidFunction _ _ hdecode] at hdispatch
      obtain rfl := Host.Outcome.next.inj hdispatch
      simp only [State.firstFatal, hfetch, if_neg hop, if_neg halu, if_pos hbranch]
      rfl
    obtain ⟨i, hdecode⟩ := decode_of_legal hop halu hbranch
    rw [dispatchWord_of_instr _ _ hdecode] at hdispatch
    rw [exec_run hdispatch, State.firstFatal_of_decode hfetch hdecode, State.advancePc_run, hrun]

/-- Settles O33. -/
theorem cycleReportsFirstFatalCondition : Obligations.CycleReportsFirstFatalCondition := by
  intro s hrun
  obtain ⟨t, ht⟩ := step_next_of_running hrun
  refine ⟨t, ht, ?_⟩
  rw [step_run hrun ht]
  cases s.firstFatal <;> rfl

/-! ### The stopped block and RESET (60_exceptions.md R160; 70_reset_and_hazards.md R180, R182) -/

/-- Settles O39. -/
theorem longImageIsRefused : Obligations.LongImageIsRefused := fun _ _ _ _ _ h => if_neg (Nat.not_le.mpr h)

theorem runSteps_of_fatal {s : State} {f : Fault} (h : s.run = .fatal f) (k : Nat) : runSteps (k + 1) s = .fault f := by
  rw [runSteps, step_of_fatal h]

/-- Settles O36: a stopped block's first step ends the run, and RESET is a launch under the block's own sizing. -/
theorem fatalStopIsTerminal : Obligations.FatalStopIsTerminal :=
  ⟨fun _ _ h k => runSteps_of_fatal h k,
    fun s image sp0 progFill dataInit h => launchGivesResetValues s.sizing image sp0 progFill dataInit h,
    fun s image sp0 progFill dataInit h => longImageIsRefused s.sizing image sp0 progFill dataInit h⟩

/-- Listing unlisted bytes lists nothing. -/
theorem Memory.ofBytes_unlisted (n : Nat) : Memory.ofBytes n (fun _ => Config.unlistedByte) = [] := by
  induction n with
  | zero => rfl
  | succ n ih => rw [Memory.ofBytes, ih]; rfl

/-- Settles O40. -/
theorem resetIsEmptyReferenceLaunch : Obligations.ResetIsEmptyReferenceLaunch := by
  have hempty : imageByte [] (fun _ => 0x00#8) = fun _ => Config.unlistedByte := rfl
  have hzero : (fun _ : Nat => 0x00#8) = fun _ => Config.unlistedByte := rfl
  refine (launch_of_fits Config.reference _ _ _ (Nat.zero_le _)).trans (congrArg Host.Outcome.next ?_)
  refine State.ext_fields (fun q => ?_) ?_ ?_ rfl rfl
  · rw [State.reg, State.launchState_regs]
    rfl
  · rw [State.launchState_prog, hempty, Memory.ofBytes_unlisted, State.reset]
  · rw [State.launchState_data, hzero, Memory.ofBytes_unlisted, State.reset]

end Sys2Proof.Machine
end

section
/-!
PROOFS of the loaded program and of memory as data: the placed word and the loaded image are fetched (20_memory.md R52, R69;
30_encoding.md R106), zero-filled program memory runs to its end (70_reset_and_hazards.md), canonical memories are unique (log 4).
-/

namespace Sys2Proof.Machine

open Sys2Proof

/-! ### One placed word (logs 6, 7) -/

theorem State.withFetchWord_eq_placeWord (s : State) (w : Word) : s.withFetchWord 16 w.toNat = s.placeWord w := by
  rw [State.withFetchWord, Nat.mod_eq_of_lt w.isLt, BitVec.ofNat_toNat, BitVec.setWidth_eq]

theorem State.fetchInBounds_iff {s : State} {a : Word} :
    s.fetchInBounds a = true ↔ s.sizing.loadBase.toNat ≤ a.toNat ∧ s.progOffset a + 1 < s.sizing.progMemSize := by
  simp [State.fetchInBounds]

theorem State.progOffset_placeWord (s : State) (w a : Word) : (s.placeWord w).progOffset a = s.progOffset a := by
  simp [State.progOffset]

/-- The word placed at pc is fetched there, its low byte first. -/
theorem State.fetchWord_placeWord {s : State} (w : Word) (h : s.fetchInBounds (s.reg .pc) = true) :
    (s.placeWord w).fetchWord (s.reg .pc) = some w := by
  obtain ⟨hbase, hend⟩ := State.fetchInBounds_iff.mp h
  rw [State.fetchWord_eq_some (by simpa using hbase) (by simpa [State.progOffset_placeWord] using hend),
    State.progOffset_placeWord, State.placeWord_prog s w h]
  simp [Memory.read_putWord]

/-- Settles O32. -/
theorem placedWordIsFetched : Obligations.PlacedWordIsFetched := by
  intro s w h
  rw [State.withFetchWord_eq_placeWord]
  refine ⟨State.fetchWord_placeWord w h, fun a hlow hhigh => ?_, State.reg_placeWord s w, fun a => ?_,
    State.placeWord_run s w, State.placeWord_sizing s w⟩
  · rw [State.placeWord_prog s w h, Memory.read_putWord, if_neg hhigh, if_neg hlow]
  · rw [State.placeWord_data]

/-! ### The loaded image (30_encoding.md R106) -/

theorem imageOf_cons (i : Instr) (is : List Instr) :
    imageOf (i :: is) = lowByte (encode i) :: highByte (encode i) :: imageOf is := rfl

/-- The `k`-th instruction's bytes stand at `2k` and `2k + 1`. -/
theorem imageOf_bytes_of_getElem_eq {is : List Instr} {k : Nat} {i : Instr} (h : is[k]? = some i) :
    (imageOf is)[2 * k]? = some (lowByte (encode i)) ∧ (imageOf is)[2 * k + 1]? = some (highByte (encode i)) := by
  induction is generalizing k with
  | nil => simp at h
  | cons j is ih =>
    rw [imageOf_cons]
    cases k with
    | zero =>
      obtain rfl : j = i := by simpa using h
      exact ⟨rfl, rfl⟩
    | succ k => exact ih (by simpa using h)

theorem imageByte_of_getElem_eq {image : List Byte} {k : Nat} {v : Byte} (progFill : Nat → Byte) (h : image[k]? = some v) :
    imageByte image progFill k = v := by
  simp [imageByte, List.getD_eq_getElem?_getD, h]

/-- Settles O41: the fetch at LOAD_BASE + 2k is in bounds and gives the two bytes of the `k`-th word. -/
theorem loadedImageIsFetched : Obligations.LoadedImageIsFetched := by
  intro z is sp0 progFill dataInit k i hfits hspace hi
  obtain ⟨hlow, hhigh⟩ := imageOf_bytes_of_getElem_eq hi
  obtain ⟨hlength, _⟩ := List.getElem?_eq_some_iff.mp hhigh
  have haddr : (BitVec.ofNat 16 (z.loadBase.toNat + 2 * k)).toNat = z.loadBase.toNat + 2 * k := by
    rw [BitVec.toNat_ofNat]
    omega
  have hoffset : (State.launchState z (imageOf is) sp0 progFill dataInit).progOffset
      (BitVec.ofNat 16 (z.loadBase.toNat + 2 * k)) = 2 * k := by
    rw [State.progOffset, haddr, State.launchState_sizing, Nat.add_sub_cancel_left]
  refine ⟨encode i, ?_, decode_encode i⟩
  rw [State.fetchWord_eq_some (by rw [haddr, State.launchState_sizing]; omega)
      (by rw [hoffset, State.launchState_sizing]; omega), hoffset, State.launchState_prog, Memory.read_ofBytes,
    Memory.read_ofBytes, if_pos (by omega), if_pos (by omega), imageByte_of_getElem_eq progFill hlow,
    imageByte_of_getElem_eq progFill hhigh, wordOfBytes_lowByte_highByte]

/-! ### Zero-filled program memory -/

theorem State.setReg_self (s : State) (r : Reg) : s.setReg r (s.reg r) = s :=
  State.ext_fields (fun q => by by_cases hq : q = r <;> simp [hq]) rfl rfl rfl rfl

theorem State.setReg_setReg (s : State) (r : Reg) (v w : Word) : (s.setReg r v).setReg r w = s.setReg r w :=
  State.ext_fields (fun q => by by_cases hq : q = r <;> simp [hq]) rfl rfl rfl rfl

/-- The zero word is `mov $a0 $a0`, which changes nothing. -/
theorem exec_mov_zero (s : State) : exec (.mov 0#4 0#4) s = .next s :=
  (exec_mov_field .a0 .a0 s).trans (congrArg Host.Outcome.next (s.setReg_self .a0))

theorem step_of_zero_word {s : State} (hrun : s.run = .running) (hfetch : s.fetchWord (s.reg .pc) = some 0#16) :
    step s = .next s.advancePc :=
  (step_of_decode hrun hfetch (by decide : decode 0#16 = .instr (.mov 0#4 0#4))).trans (exec_mov_zero _)

/-- A fetch from two zero bytes gives the zero word. -/
theorem State.fetchWord_zero {s : State} {a : Word} {off : Nat} (haddr : a.toNat = s.sizing.loadBase.toNat + off)
    (hend : off + 1 < s.sizing.progMemSize) (hlow : s.prog.read off = 0x00#8) (hhigh : s.prog.read (off + 1) = 0x00#8) :
    s.fetchWord a = some 0#16 := by
  have hoffset : s.progOffset a = off := by rw [State.progOffset, haddr, Nat.add_sub_cancel_left]
  rw [State.fetchWord_eq_some (by omega) (by rw [hoffset]; exact hend), hoffset, hlow, hhigh]
  rfl

/-- `n` cycles over zero bytes add `2n` to pc and change nothing else. -/
theorem runSteps_zeroFill {n off : Nat} {s : State} (hrun : s.run = .running)
    (hpc : (s.reg .pc).toNat = s.sizing.loadBase.toNat + off) (hend : off + 2 * n ≤ s.sizing.progMemSize)
    (hspace : s.sizing.loadBase.toNat + s.sizing.progMemSize < 65536)
    (hzero : ∀ a, off ≤ a → a < s.sizing.progMemSize → s.prog.read a = 0x00#8) :
    runSteps n s = .next (s.setReg .pc (BitVec.ofNat 16 (s.sizing.loadBase.toNat + off + 2 * n))) := by
  induction n generalizing s off with
  | zero =>
    rw [Nat.mul_zero, Nat.add_zero, ← hpc, BitVec.ofNat_toNat, BitVec.setWidth_eq, State.setReg_self]
    rfl
  | succ n ih =>
    have hstep : step s = .next s.advancePc := step_of_zero_word hrun
      (State.fetchWord_zero hpc (by omega) (hzero _ (by omega) (by omega)) (hzero _ (by omega) (by omega)))
    have hpcNext : (s.advancePc.reg .pc).toNat = s.advancePc.sizing.loadBase.toNat + (off + 2) := by
      rw [State.reg_advancePc, if_pos rfl, toNat_add_two, State.advancePc_sizing]
      omega
    have hrest := ih (s := s.advancePc) hrun hpcNext (by rw [State.advancePc_sizing]; omega) hspace
      fun a ha => hzero a (by omega)
    refine runSteps_succ_eq_next.mpr ⟨_, hstep, hrest.trans ?_⟩
    rw [State.advancePc, State.setReg_setReg, State.setReg_sizing]
    congr 3
    omega

/-- Settles O45: the run of the whole words that are left, then the fetch past the end. -/
theorem zeroFillRunsOffTheEnd : Obligations.ZeroFillRunsOffTheEnd := by
  intro s off hrun hpc hoff hspace hzero
  have hsteps := runSteps_zeroFill (n := (s.sizing.progMemSize - off) / 2) hrun hpc (by omega) hspace hzero
  obtain ⟨hpcEnd, hother, honly⟩ := s.setReg_writesOnly .pc
    (BitVec.ofNat 16 (s.sizing.loadBase.toNat + off + 2 * ((s.sizing.progMemSize - off) / 2)))
  generalize s.setReg .pc _ = t at hsteps hpcEnd hother honly
  obtain ⟨hdata, hprog, hrunEnd, hsizing⟩ := honly
  have hpcNat : (t.reg .pc).toNat =
      s.sizing.loadBase.toNat + s.sizing.progMemSize - (s.sizing.progMemSize - off) % 2 := by
    rw [hpcEnd, BitVec.toNat_ofNat]
    omega
  obtain ⟨u, hu, hstops⟩ := fetchOutOfRangeStops t (hrunEnd.trans hrun) (.inr (by rw [hsizing]; omega))
  exact ⟨t, u, hsteps, hpcNat, hother, ⟨hdata, hprog, hrunEnd, hsizing⟩, hu, hstops⟩

/-! ### Canonical memories (log 4) -/

theorem Memory.wfFrom_cons {lo a : Nat} {v : Byte} {m : Memory} :
    Memory.wfFrom lo ((a, v) :: m) = true ↔ lo ≤ a ∧ v ≠ Config.unlistedByte ∧ Memory.wfFrom (a + 1) m = true := by
  simp [Memory.wfFrom, and_assoc]

theorem Memory.read_cons (a b : Nat) (v : Byte) (m : Memory) :
    Memory.read ((a, v) :: m) b = if b = a then v else m.read b := rfl

/-- The first listed address of a canonical memory is the least at which it does not read as unlisted. -/
theorem Memory.le_of_read_ne {lo a : Nat} {m : Memory} (h : Memory.wfFrom lo m = true)
    (ha : m.read a ≠ Config.unlistedByte) : lo ≤ a := by
  by_contra hlt
  exact ha (Memory.read_eq_unlisted_of_wfFrom h (by omega))

/-- A canonical memory that lists a byte does not read as unlisted there. -/
theorem Memory.read_head_ne {lo a : Nat} {v : Byte} {m : Memory} (h : Memory.wfFrom lo ((a, v) :: m) = true) :
    Memory.read ((a, v) :: m) a ≠ Config.unlistedByte := by
  rw [Memory.read_cons, if_pos rfl]
  exact (Memory.wfFrom_cons.mp h).2.1

theorem Memory.wfFrom_head {lo a : Nat} {v : Byte} {m : Memory} (h : Memory.wfFrom lo ((a, v) :: m) = true) :
    Memory.wfFrom a ((a, v) :: m) = true := by
  obtain ⟨_, hv, hm⟩ := Memory.wfFrom_cons.mp h
  exact Memory.wfFrom_cons.mpr ⟨Nat.le_refl a, hv, hm⟩

/-- Two canonical memories that read the same have the same first entry, and tails that read the same. -/
theorem Memory.eq_of_wfFrom {lo : Nat} {m n : Memory} (hm : Memory.wfFrom lo m = true) (hn : Memory.wfFrom lo n = true)
    (h : ∀ a, m.read a = n.read a) : m = n := by
  induction m generalizing lo n with
  | nil =>
    cases n with
    | nil => rfl
    | cons c n => exact absurd (h c.1).symm (Memory.read_head_ne hn)
  | cons c m ih =>
    obtain ⟨a, v⟩ := c
    cases n with
    | nil => exact absurd (h a) (Memory.read_head_ne hm)
    | cons d n =>
      obtain ⟨b, w⟩ := d
      have hba : b ≤ a := Memory.le_of_read_ne (Memory.wfFrom_head hn) (h a ▸ Memory.read_head_ne hm)
      have hab : a ≤ b := Memory.le_of_read_ne (Memory.wfFrom_head hm) ((h b).symm ▸ Memory.read_head_ne hn)
      obtain rfl := Nat.le_antisymm hab hba
      obtain ⟨_, _, hmTail⟩ := Memory.wfFrom_cons.mp hm
      obtain ⟨_, _, hnTail⟩ := Memory.wfFrom_cons.mp hn
      have hvw : v = w := by simpa [Memory.read_cons] using h a
      have htail : m = n := ih hmTail hnTail fun c => by
        by_cases hc : c = a
        · have hbelow : c < a + 1 := by omega
          rw [Memory.read_eq_unlisted_of_wfFrom hmTail hbelow, Memory.read_eq_unlisted_of_wfFrom hnTail hbelow]
        · simpa [Memory.read_cons, hc] using h c
      rw [hvw, htail]

/-- Settles O44. -/
theorem canonicalMemoryIsUnique : Obligations.CanonicalMemoryIsUnique := fun _ _ hm hn h => Memory.eq_of_wfFrom hm hn h

end Sys2Proof.Machine
end

section
/-! PROOFS of the assembler's text: the text form of an instruction assembles back to it (30_encoding.md R101 to R106, R110). -/

namespace Sys2Proof.Machine

open Sys2Proof

/-! ### Operands as text (30_encoding.md R103, R104) -/

@[simp] theorem Mnemonic.ofText_text (m : Mnemonic) : Mnemonic.ofText m.text = some m := by cases m <;> decide

theorem Reg.field_of_index {f : Nibble} {r : Reg} (h : f.toNat = r.index) : f = r.field := by
  apply BitVec.eq_of_toNat_eq
  rw [h, Reg.toNat_field]

theorem parseOperand_regName (r : Reg) : parseOperand ("$" ++ r.name) = some (.reg r) := by
  cases r <;> decide

/-- No register has a name beginning with `r`, which the text of a field of 12..15 has (D26). -/
theorem Reg.ofName_r (t : String) : Reg.ofName ("r" ++ t) = none := by
  cases h : Reg.ofName ("r" ++ t) with
  | none => rfl
  | some q =>
    have hname : 'r' :: t.toList = q.name.toList := by simp [← Reg.eq_name_of_ofName h]
    cases q <;> simp [Reg.name] at hname

theorem parseOperand_noName (t : String) : parseOperand ("$r" ++ t) = none := by
  have htext : ("$r" ++ t).toList = '$' :: 'r' :: t.toList := by simp
  rw [parseOperand, htext]
  simp [Reg.ofName_r]

/-- A register field's text is the operand of the register it names, and none where it names none (D26). -/
theorem parseOperand_fieldText (f : Nibble) : parseOperand (fieldText f) = (Reg.ofIndex f.toNat).map .reg := by
  unfold fieldText
  cases Reg.ofIndex f.toNat with
  | some r => exact parseOperand_regName r
  | none => exact parseOperand_noName _

/-- The decimal text of a number spells it. -/
theorem decimal_toDigits (n : Nat) : decimal (Nat.toDigits 10 n) = some n := by
  have hdigits : (Nat.toDigits 10 n).all Char.isDigit = true :=
    List.all_eq_true.mpr fun _ hc => Nat.isDigit_of_mem_toDigits (by decide) (by decide) hc
  have hvalue := Nat.ofDigitChars_ten_toDigits (n := n)
  rw [Nat.ofDigitChars_eq_foldl] at hvalue
  cases hcs : Nat.toDigits 10 n with
  | nil => exact absurd hcs Nat.toDigits_ne_nil
  | cons c cs =>
    rw [hcs] at hdigits hvalue
    rw [decimal, if_pos hdigits]
    exact congrArg some hvalue
    simp

theorem parseOperand_repr (n : Nat) : parseOperand n.repr = some (.num n) := by
  rw [parseOperand, Nat.toList_repr]
  split
  · next cs hcs =>
    have hdollar : '$'.isDigit = true :=
      Nat.isDigit_of_mem_toDigits (b := 10) (n := n) (by decide) (by decide) (by simp [hcs])
    exact absurd hdollar (by decide)
  · rw [decimal_toDigits]; rfl

/-! ### The three forms of R105 -/

/-- A field has a name and is that register's, or it has none and is not accepted. -/
theorem field_cases (f : Nibble) :
    (∃ r : Reg, f = r.field ∧ parseOperand (fieldText f) = some (.reg r)) ∨
      (validIndex f.toNat = false ∧ parseOperand (fieldText f) = none) := by
  rw [parseOperand_fieldText]
  cases h : Reg.ofIndex f.toNat with
  | some r =>
    have hindex : f.toNat = r.index := Reg.ofIndex_eq_some.mp h
    exact .inl ⟨r, Reg.field_of_index hindex, rfl⟩
  | none =>
    have hindex : 11 < f.toNat := Reg.ofIndex_eq_none.mp h
    exact .inr ⟨by simpa [validIndex] using hindex, rfl⟩

theorem assembleTokens_registerForm {mn : Mnemonic} {mk : Nibble → Nibble → Instr}
    (hmk : ∀ d q : Reg, assemble mn [.reg d, .reg q] = some (mk d.field q.field)) (x y : Nibble) :
    assembleTokens [mn.text, fieldText x, fieldText y] =
      if validIndex x.toNat && validIndex y.toNat then some (mk x y) else none := by
  rcases field_cases x with ⟨d, rfl, px⟩ | ⟨hx, px⟩
  · rcases field_cases y with ⟨q, rfl, py⟩ | ⟨hy, py⟩
    · simp [assembleTokens, px, py, hmk]
    · simp [assembleTokens, px, py, hy]
  · simp [assembleTokens, px, hx]

theorem assembleTokens_immediateForm {mn : Mnemonic} {mk : Nibble → Byte → Instr}
    (hmk : ∀ (r : Reg) (n : Byte), assemble mn [.reg r, .num n.toNat] = some (mk r.field n)) (r : Nibble) (n : Byte) :
    assembleTokens [mn.text, fieldText r, toString n.toNat] = if validIndex r.toNat then some (mk r n) else none := by
  rcases field_cases r with ⟨d, rfl, pr⟩ | ⟨hr, pr⟩
  · simp [assembleTokens, pr, parseOperand_repr, hmk]
  · simp [assembleTokens, pr, hr]

theorem assembleTokens_branchForm {mn : Mnemonic} {mk : Byte → Instr}
    (hmk : ∀ n : Byte, assemble mn [.num n.toNat] = some (mk n)) (n : Byte) :
    assembleTokens [mn.text, toString n.toNat] = some (mk n) := by
  simp [assembleTokens, parseOperand_repr, hmk]

/-- Settles O47: each instruction is written in one of the three forms, with its own mnemonic. -/
theorem disassemblyAssemblesBack : Obligations.DisassemblyAssemblesBack := by
  intro i
  cases i with
  | mov x y => exact assembleTokens_registerForm (mn := .mov) (fun _ _ => rfl) x y
  | add x y => exact assembleTokens_registerForm (mn := .add) (fun _ _ => rfl) x y
  | sub x y => exact assembleTokens_registerForm (mn := .sub) (fun _ _ => rfl) x y
  | or x y => exact assembleTokens_registerForm (mn := .or) (fun _ _ => rfl) x y
  | and x y => exact assembleTokens_registerForm (mn := .and) (fun _ _ => rfl) x y
  | cmp x y => exact assembleTokens_registerForm (mn := .cmp) (fun _ _ => rfl) x y
  | movi r n => exact assembleTokens_immediateForm (mn := .movi) (fun _ _ => by simp [assemble]) r n
  | ld r n => exact assembleTokens_immediateForm (mn := .ld) (fun _ _ => by simp [assemble]) r n
  | st r n => exact assembleTokens_immediateForm (mn := .st) (fun _ _ => by simp [assemble]) r n
  | b n => exact assembleTokens_branchForm (mn := .b) (fun _ => by simp [assemble]) n
  | beq n => exact assembleTokens_branchForm (mn := .beq) (fun _ => by simp [assemble]) n
  | bz n => exact assembleTokens_branchForm (mn := .bz) (fun _ => by simp [assemble]) n

end Sys2Proof.Machine
end
